-- ==== Sys2Proof/Word.lean ====
section
/-! DEFINITION. The byte and the pixel (R8, R9): the two units every register, buffer and chunk field is made of. -/

namespace Sys2Proof

/-- `u8`: 8 bits, bit 7 the most significant (R8). A channel, and a byte of a stream. -/
abbrev Byte := BitVec 8

/-- R9: "an ordered 4-tuple of unsigned 8-bit channel values", in the fixed order r, g, b, a (R57). -/
structure Pixel where
  r : Byte
  g : Byte
  b : Byte
  a : Byte
  deriving DecidableEq, Repr

/-- R9: `ZERO`, the pixel (0, 0, 0, 0). -/
def Pixel.zero : Pixel := ⟨0, 0, 0, 0⟩

end Sys2Proof
end

