-- ==== Sys2Proof/Config.lean ====
section
/-! DEFINITION. The format constants the source leaves open (R7, R29, R294): each is a field of `Format`, plain data that the
state carries and no step writes, so that every rule is stated for every admissible value of it. The hash is a function of the
pixel and no state may hold a function: `Format` names it, and the name `unstated` stands for `Config.hash`, a constant with
no body. -/

namespace Sys2Proof

/-- R141, D1: the hash formula is "not present in the excerpted material". A function of the four channels with range
[0, 63] that nothing constrains: no proof can evaluate it, so what holds of it holds of every hash. DESIGN CHOICE, log 2. -/
opaque Config.hash : Pixel → BitVec 6

/-- R141, R142: which function `HASH` is. `publicFormat` is the spec's default formula (PRESUMED, log 1), `unstated` is
`Config.hash` (log 2). -/
inductive HashFn where
  | publicFormat
  | unstated
  deriving DecidableEq, Repr

/-- D4: `TAG_INDEX`, `TAG_DIFF`, `TAG_LUMA` are the three values 00, 01, 10 in some order. A constructor names the kinds that
have 00, 01 and 10, in that order: `indexDiffLuma` is the spec's default. DEDUCED that there are just six, log 3. -/
inductive TwoBitTags where
  | indexDiffLuma
  | indexLumaDiff
  | diffIndexLuma
  | diffLumaIndex
  | lumaIndexDiff
  | lumaDiffIndex
  deriving DecidableEq, Repr

/-- D5, R96: `TAG_RGB` and `TAG_RGBA` are FE and FF in some order; a constructor names the kinds with FE and FF, in that
order. `rgbRgba` is the spec's default. DEDUCED that there are just two, log 3. -/
inductive FullTags where
  | rgbRgba
  | rgbaRgb
  deriving DecidableEq, Repr

/-- R7: the open format constants, one value shared by encoder and decoder (R294, premise `ConstantsShared`). -/
structure Format where
  /-- `HASH` -/
  hash : HashFn
  /-- `INIT_PREV`, the previous pixel at pass start (R40) -/
  initPrev : Pixel
  /-- `MAGIC`, the header's first four bytes, the first byte most significant (R89) -/
  magic : BitVec 32
  /-- `TAG_INDEX`, `TAG_DIFF`, `TAG_LUMA` -/
  tags : TwoBitTags
  /-- `TAG_RGB`, `TAG_RGBA` -/
  fullTags : FullTags
  deriving DecidableEq, Repr

end Sys2Proof
end

