-- ==== Sys2Proof/Syntax.lean ====
section
/-! DEFINITION. The rows of spec/opcode_table.json: the six chunk kinds (R82 to R87), the header (R89) and the end marker
(R90), one constructor each. Fields hold the decoded values of R94's text form, not the biased bits. -/

namespace Sys2Proof

/-- R80, R94: the eight formats. -/
inductive Instr where
  /-- `RGB{r,g,b}` (R86, R202) -/
  | rgb (r g b : Byte)
  /-- `RGBA{r,g,b,a}` (R87, R203) -/
  | rgba (r g b a : Byte)
  /-- `Index{slot}` (R83, R204) -/
  | index (slot : BitVec 6)
  /-- `Diff{dr,dg,db}` (R84, R205) -/
  | diff (dr dg db : Int)
  /-- `Luma{dg,dr_minus_dg,db_minus_dg}` (R85, R206) -/
  | luma (dg drDg dbDg : Int)
  /-- `Run{count}` (R82, R207) -/
  | run (count : Nat)
  /-- `HDR{width,height,channels,colorspace}` (R89, R120); the magic is a format constant, not an operand -/
  | hdr (width height : BitVec 32) (channels colorspace : Byte)
  /-- `END` (R90, R242) -/
  | endMarker
  deriving DecidableEq, Repr

/-- Where in a stream a format is read: R81's dispatch is for chunks alone, the header and the marker are "never dispatched
on" but read at their own places (R51, R89, R90). -/
inductive Site where
  | header
  | chunk
  | marker
  deriving DecidableEq, Repr

/-- The place each format is read at. -/
def Instr.site : Instr → Site
  | .rgb _ _ _ => .chunk
  | .rgba _ _ _ _ => .chunk
  | .index _ => .chunk
  | .diff _ _ _ => .chunk
  | .luma _ _ _ => .chunk
  | .run _ => .chunk
  | .hdr _ _ _ _ => .header
  | .endMarker => .marker

/-- R88 for the chunks, R89 and R90 for the other two: the length in bytes. -/
def Instr.length : Instr → Nat
  | .rgb _ _ _ => 4
  | .rgba _ _ _ _ => 5
  | .index _ => 1
  | .diff _ _ _ => 1
  | .luma _ _ _ => 2
  | .run _ => 1
  | .hdr _ _ _ _ => 14
  | .endMarker => 8

end Sys2Proof
end

