-- ==== Sys2Proof/WellFormed.lean ====
section
/-! DEFINITION. Which instructions the encoding can spell (R91): the range of each biased field. -/

namespace Sys2Proof

/-- R91: the value of every biased field lies in the range its bits can hold. `Index`, `RGB`, `RGBA` and the header's fields
fill their bits exactly, and `END` has none, so their types are the whole check. The header's domain (3 or 4, 0 or 1) is no
matter of spelling: a header outside it is read and then refused by `MalformedHeader` (R120). -/
def Instr.wellFormed : Instr → Bool
  | .rgb _ _ _ => true
  | .rgba _ _ _ _ => true
  | .index _ => true
  | .diff dr dg db => (-2 ≤ dr && dr ≤ 1) && (-2 ≤ dg && dg ≤ 1) && (-2 ≤ db && db ≤ 1)
  | .luma dg drDg dbDg => (-32 ≤ dg && dg ≤ 31) && (-8 ≤ drDg && drDg ≤ 7) && (-8 ≤ dbDg && dbDg ≤ 7)
  | .run count => 1 ≤ count && count ≤ 62
  | .hdr _ _ _ _ => true
  | .endMarker => true

end Sys2Proof
end

