-- ==== Sys2Proof/Decode.lean ====
section
/-! DEFINITION. Bytes to instructions and back: the tag values, the bit fields, the dispatch (R81), the decoder, total on any
bytes and rejecting by name, the encoder, and the host's reading of one row of the opcode table. -/

namespace Sys2Proof

/-- R7: the spec's defaults, those of the public "Quite OK Image" format. PRESUMED, log 1. -/
def defaultFormat : Format :=
  { hash := .publicFormat
    initPrev := ⟨0, 0, 0, 255⟩
    magic := 0x716F6966#32
    tags := .indexDiffLuma
    fullTags := .rgbRgba }

/-! ### Tag values (R6, R7, D4, D5) -/

/-- `TAG_INDEX`. -/
def TwoBitTags.index : TwoBitTags → BitVec 2
  | .indexDiffLuma => 0b00
  | .indexLumaDiff => 0b00
  | .diffIndexLuma => 0b01
  | .diffLumaIndex => 0b10
  | .lumaIndexDiff => 0b01
  | .lumaDiffIndex => 0b10

/-- `TAG_DIFF`. -/
def TwoBitTags.diff : TwoBitTags → BitVec 2
  | .indexDiffLuma => 0b01
  | .indexLumaDiff => 0b10
  | .diffIndexLuma => 0b00
  | .diffLumaIndex => 0b00
  | .lumaIndexDiff => 0b10
  | .lumaDiffIndex => 0b01

/-- `TAG_LUMA`. -/
def TwoBitTags.luma : TwoBitTags → BitVec 2
  | .indexDiffLuma => 0b10
  | .indexLumaDiff => 0b01
  | .diffIndexLuma => 0b10
  | .diffLumaIndex => 0b01
  | .lumaIndexDiff => 0b00
  | .lumaDiffIndex => 0b00

/-- `TAG_RUN`, from the source (R6). -/
def tagRun : BitVec 2 := 0b11

/-- `TAG_RGB`. -/
def FullTags.rgb : FullTags → Byte
  | .rgbRgba => 0xFE
  | .rgbaRgb => 0xFF

/-- `TAG_RGBA`. -/
def FullTags.rgba : FullTags → Byte
  | .rgbRgba => 0xFF
  | .rgbaRgb => 0xFE

/-! ### Bit fields and byte order (R8, R14) -/

/-- `b[hi:hi-n+1]`, the `n` bits from bit `lo` up (R8). -/
def bits (b : Byte) (lo n : Nat) : BitVec n := b.extractLsb' lo n

/-- R14: `be32`, the four bytes of a `u32`, most significant first. -/
def be32 (v : BitVec 32) : List Byte :=
  [v.extractLsb' 24 8, v.extractLsb' 16 8, v.extractLsb' 8 8, v.extractLsb' 0 8]

/-- R14: `unbe32`. -/
def unbe32 (b0 b1 b2 b3 : Byte) : BitVec 32 := b0 ++ b1 ++ b2 ++ b3

/-- R6, R90: `END_MARKER`, "7 zero bytes followed by one 0x01 byte". -/
def endMarkerBytes : List Byte := [0, 0, 0, 0, 0, 0, 0, 1]

/-! ### Dispatch on the first byte (R81, R88) -/

/-- The six chunk kinds (R80). -/
inductive ChunkKind where
  | rgb | rgba | index | diff | luma | run
  deriving DecidableEq, Repr

/-- R81: the dispatch, "most-specific first", under a choice of the tag values. -/
def dispatch (t : TwoBitTags) (full : FullTags) (b : Byte) : ChunkKind :=
  if b = full.rgb then .rgb
  else if b = full.rgba then .rgba
  else if bits b 6 2 = t.index then .index
  else if bits b 6 2 = t.diff then .diff
  else if bits b 6 2 = t.luma then .luma
  else .run

/-- R88: "dispatch depends on `b` only, never on state"; of the format constants it depends on the tags. -/
def chunkKind (f : Format) (b : Byte) : ChunkKind := dispatch f.tags f.fullTags b

/-- R88: the length a first byte's kind gives. -/
def ChunkKind.length : ChunkKind → Nat
  | .rgb => 4
  | .rgba => 5
  | .index => 1
  | .diff => 1
  | .luma => 2
  | .run => 1

/-! ### The decoder -/

/-- Why bytes are no instruction at a place: the causes of R210 (`truncated`), R120 (`shortHeader`, `badMagic`) and R242
(`missingMarker`). No first byte of a chunk is illegal (R93). -/
inductive DecodeError where
  | truncated
  | shortHeader
  | badMagic
  | missingMarker
  deriving DecidableEq, Repr

/-- R81 to R88, R91: one chunk from the front of a byte string, and the bytes after it. -/
def decodeChunk (f : Format) : List Byte → Except DecodeError (Instr × List Byte)
  | [] => .error .truncated
  | b :: rest =>
    match chunkKind f b with
    | .rgb =>
      match rest with
      | r :: g :: bl :: rest' => .ok (.rgb r g bl, rest')
      | _ => .error .truncated
    | .rgba =>
      match rest with
      | r :: g :: bl :: a :: rest' => .ok (.rgba r g bl a, rest')
      | _ => .error .truncated
    | .index => .ok (.index (bits b 0 6), rest)
    | .diff =>
      .ok (.diff ((bits b 4 2).toNat - 2) ((bits b 2 2).toNat - 2) ((bits b 0 2).toNat - 2), rest)
    | .luma =>
      match rest with
      | c :: rest' =>
        .ok (.luma ((bits b 0 6).toNat - 32) ((bits c 4 4).toNat - 8) ((bits c 0 4).toNat - 8), rest')
      | [] => .error .truncated
    | .run => .ok (.run ((bits b 0 6).toNat + 1), rest)

/-- R89, R120, R122: the header's fourteen bytes; the length is tested before the magic (R121). -/
def decodeHeader (f : Format) : List Byte → Except DecodeError (Instr × List Byte)
  | m0 :: m1 :: m2 :: m3 :: w0 :: w1 :: w2 :: w3 :: h0 :: h1 :: h2 :: h3 :: c :: s :: rest =>
    if unbe32 m0 m1 m2 m3 = f.magic then
      .ok (.hdr (unbe32 w0 w1 w2 w3) (unbe32 h0 h1 h2 h3) c s, rest)
    else .error .badMagic
  | _ => .error .shortHeader

/-- R90, R242: the eight bytes of the end marker, compared byte for byte. -/
def decodeMarker (bs : List Byte) : Except DecodeError (Instr × List Byte) :=
  if bs.take 8 = endMarkerBytes then .ok (.endMarker, bs.drop 8) else .error .missingMarker

/-- The decoder at a place of the stream. -/
def decode (f : Format) : Site → List Byte → Except DecodeError (Instr × List Byte)
  | .header, bs => decodeHeader f bs
  | .chunk, bs => decodeChunk f bs
  | .marker, bs => decodeMarker bs

/-! ### The encoder -/

/-- R82 to R90: the bytes of a well-formed instruction. -/
def encode (f : Format) : Instr → List Byte
  | .rgb r g b => [f.fullTags.rgb, r, g, b]
  | .rgba r g b a => [f.fullTags.rgba, r, g, b, a]
  | .index slot => [f.tags.index ++ slot]
  | .diff dr dg db =>
    [f.tags.diff ++ BitVec.ofInt 2 (dr + 2) ++ BitVec.ofInt 2 (dg + 2) ++ BitVec.ofInt 2 (db + 2)]
  | .luma dg drDg dbDg =>
    [f.tags.luma ++ BitVec.ofInt 6 (dg + 32), BitVec.ofInt 4 (drDg + 8) ++ BitVec.ofInt 4 (dbDg + 8)]
  | .run count => [tagRun ++ BitVec.ofNat 6 (count - 1)]
  | .hdr w h c s => be32 f.magic ++ be32 w ++ be32 h ++ [c, s]
  | .endMarker => endMarkerBytes

/-! ### One row of the opcode table as a number (log 15) -/

/-- The `n` bytes of `w`, the least significant first: how the table numbers a chunk's bytes. -/
def bytesUp (w : Nat) : Nat → List Byte
  | 0 => []
  | n + 1 => BitVec.ofNat 8 w :: bytesUp (w / 256) n

/-- The table numbers the header's magic, and the end marker, as one word with its first byte most significant; the header's
other fields follow as words of their own. -/
def headerOfWord (w : Nat) : List Byte :=
  be32 (BitVec.ofNat 32 w) ++ be32 (BitVec.ofNat 32 (w / 2 ^ 32)) ++ be32 (BitVec.ofNat 32 (w / 2 ^ 64))
    ++ bytesUp (w / 2 ^ 96) 2

/-- Where the row of `nbits` bits is read and the bytes it has there: 64 bits are the end marker, 112 bits are a header, 32
bits are a header when they are the magic; every other row is a chunk, its bits above `nbits` zero. -/
def tableRow (nbits w : Nat) : Site × List Byte :=
  if nbits = 64 then
    if bytesUp w 8 = endMarkerBytes then (.marker, bytesUp w 8) else (.marker, (bytesUp w 8).reverse)
  else if nbits = 112 ∨ (nbits = 32 ∧ BitVec.ofNat 32 w = defaultFormat.magic) then
    (.header, headerOfWord (w % 2 ^ nbits))
  else (.chunk, bytesUp (w % 2 ^ nbits) 5)

/-- The instruction the decoder reads from the row's bytes, under the table's own (default) constants. -/
def decodeTableWord (nbits w : Nat) : Option Instr :=
  match decode defaultFormat (tableRow nbits w).1 (tableRow nbits w).2 with
  | .ok (i, _) => some i
  | .error _ => none

end Sys2Proof
end

