-- ==== Sys2Proof/Machine/State.lean ====
section
/-! DEFINITION. The state: both instances' registers, the header and control registers, the five buffers, the format
constants, and the operation in progress; the outcomes of a step that are no next state; the machine at reset. -/

namespace Sys2Proof.Machine

/-! ### Buffers (R50) -/

/-- A buffer of cells by offset: the cells that are not blank, addresses strictly rising. A buffer's length is a register of
its own; a cell of it that is not listed is blank. DESIGN CHOICE, log 8. -/
abbrev Store (α : Type) := List (Nat × α)

/-- A byte space (`STREAM`, `CHUNKS`, `ENCOUT`); a cell is a `Host.Cell`, the blank is the byte 0. -/
abbrev Memory := List Host.Cell

/-- A pixel space (`PIXIN`, `PIXOUT`); the blank is `ZERO`. -/
abbrev PixelMemory := List (Nat × Pixel)

/-- The canonical form: addresses strictly rising, no cell blank. -/
abbrev Store.wf {α : Type} (blank : α) (m : Store α) : Prop :=
  m.Pairwise (fun x y => x.1 < y.1) ∧ ∀ c ∈ m, c.2 ≠ blank

/-- The canonical form of a byte space. -/
abbrev Memory.wf (m : Memory) : Prop := Store.wf (0 : Byte) m

/-- The canonical form of a pixel space. -/
abbrev PixelMemory.wf (m : PixelMemory) : Prop := Store.wf Pixel.zero m

/-- R30, R140: 64 slots of one pixel. -/
abbrev Cache := Vector Pixel 64

/-! ### Status and errors (R26, R260, R265) -/

/-- R260: the four error kinds. `sizeMismatch` is reserved: no block of the core raises it (R264). -/
inductive ErrorKind where
  | malformedHeader
  | missingEndMarker
  | truncatedStream
  | sizeMismatch
  deriving DecidableEq, Repr

/-- R261: the sub-causes of `MalformedHeader`. -/
inductive HeaderDefect where
  | shortHeader
  | badMagic
  | badChannels
  | badColorSpace
  deriving DecidableEq, Repr

/-- R265: what `ERRINFO` records. -/
inductive ErrInfo where
  | none
  | header (d : HeaderDefect)
  | marker (slen : Nat)
  | truncated (pos outcnt : Nat)
  deriving DecidableEq, Repr

/-- R26: `STATUS`. -/
inductive Status where
  | idle
  | running
  | done
  | fault (k : ErrorKind)
  deriving DecidableEq, Repr

/-! ### Instances (R20) -/

/-- R20: the registers of an encoder instance. -/
structure EncoderState where
  /-- `PREV` (R21) -/
  prev : Pixel
  /-- `CACHE` (R30) -/
  cache : Cache
  /-- `RUN`, 6 bits (R22) -/
  run : BitVec 6
  /-- `IDX` (R24) -/
  idx : Nat
  /-- `OUTPOS` (R25) -/
  outpos : Nat
  /-- `STATUS` (R26) -/
  status : Status
  /-- `ERRINFO` (R26, R265) -/
  errinfo : ErrInfo
  deriving DecidableEq, Repr

/-- R20: the registers of a decoder instance. -/
structure DecoderState where
  /-- `PREV` (R21) -/
  prev : Pixel
  /-- `CACHE` (R30) -/
  cache : Cache
  /-- `POS` (R23) -/
  pos : Nat
  /-- `OUTCNT` (R25) -/
  outcnt : Nat
  /-- `STATUS` (R26) -/
  status : Status
  /-- `ERRINFO` (R26, R265) -/
  errinfo : ErrInfo
  deriving DecidableEq, Repr

/-- Which instance an operation belongs to (R18 item 1). -/
inductive Agent where
  | encoder
  | decoder
  deriving DecidableEq, Repr

/-- The model's own register: the operation in progress and what its next step is (R240, R241; log 5). -/
inductive Activity where
  /-- no operation in progress: no step is enabled -/
  | idle
  /-- `decode`: the next step parses the header -/
  | parseHeader
  /-- `decode`: the next step checks the end marker and starts the decoder pass -/
  | checkMarker
  /-- a decoder pass: the next step is `DecStep` -/
  | decodeChunks
  /-- `encode`: the next step builds the header and starts the encoder pass -/
  | buildHeader
  /-- an encoder pass: the next step is `EncStep`; `framed` when it is part of an `encode` call -/
  | encodePixels (framed : Bool)
  /-- `encode`: the next step appends the chunks and the end marker and returns -/
  | appendMarker
  /-- the `encode` call has returned `STREAM[0:SLEN)`: no step is enabled -/
  | streamReturned
  deriving DecidableEq, Repr

/-! ### Outcomes that are no next state -/

/-- Why `step` answers no next state. No instruction's meaning raises one. -/
inductive Fault where
  /-- Raised by `step` when no operation is in progress or `STATUS` is not `Running`: "no step is enabled" (R26, R41, U17).
  Safe: the hardware does nothing there. Log 12. -/
  | noStepEnabled
  /-- Raised by `step` in a bare encoder pass that is `Running` when the host has presented all `NPIX` pixels: there is no
  pixel for a step (R160, R298, U10). Safe: the hardware does nothing until the host acts. Log 11. -/
  | noPixelPresented
  deriving DecidableEq, Repr

/-- Why an instruction has no meaning here. -/
inductive Refusal where
  /-- Raised by an arm of `exec` whose instruction has no meaning yet; no arm of this model raises it. Safe. -/
  | notModelled (mnemonic : String)
  deriving DecidableEq, Repr

/-! ### The state -/

/-- Everything the spec gives the machine (INVENTORY.md, State). -/
structure State where
  /-- the format constants (R7, R29, R294); no step writes them -/
  fmt : Format
  /-- the operation in progress (the model's own) -/
  activity : Activity
  /-- the encoder instance (R20) -/
  enc : EncoderState
  /-- the decoder instance (R20) -/
  dec : DecoderState
  /-- `WIDTH` (R27) -/
  width : BitVec 32
  /-- `HEIGHT` (R27) -/
  height : BitVec 32
  /-- `CHANNELS` (R27) -/
  channels : Byte
  /-- `COLORSPACE` (R27) -/
  colorspace : Byte
  /-- `EXPECTED` (R28) -/
  expected : Nat
  /-- `LEN` (R28) -/
  len : Nat
  /-- `SLEN` (R50) -/
  slen : Nat
  /-- `NPIX` (R50) -/
  npix : Nat
  /-- the index of the pixel the host presents with `last`, if any (R160) -/
  lastAt : Option Nat
  /-- `STREAM` (R50, R51) -/
  stream : Memory
  /-- `CHUNKS` (R50, R52) -/
  chunks : Memory
  /-- `ENCOUT` (R50) -/
  encout : Memory
  /-- `PIXIN` (R50, R53) -/
  pixin : PixelMemory
  /-- `PIXOUT` (R50, R53) -/
  pixout : PixelMemory
  deriving DecidableEq, Repr

/-- R40: every slot `ZERO`. -/
def Cache.zero : Cache := Vector.replicate 64 Pixel.zero

/-- R41, R290: power-on. `STATUS` is `Idle` in both instances; the spec leaves everything else unspecified there, and the
model names a value for it: R40's pass-start value where R40 gives one, 0 or empty elsewhere (DESIGN CHOICE, log 4), and the
spec's default format constants (PRESUMED, log 1). -/
def State.reset : State :=
  { fmt := defaultFormat
    activity := .idle
    enc :=
      { prev := defaultFormat.initPrev
        cache := Cache.zero
        run := 0
        idx := 0
        outpos := 0
        status := .idle
        errinfo := .none }
    dec :=
      { prev := defaultFormat.initPrev
        cache := Cache.zero
        pos := 0
        outcnt := 0
        status := .idle
        errinfo := .none }
    width := 0
    height := 0
    channels := 0
    colorspace := 0
    expected := 0
    len := 0
    slen := 0
    npix := 0
    lastAt := Option.none
    stream := []
    chunks := []
    encout := []
    pixin := []
    pixout := [] }

end Sys2Proof.Machine
end

