-- ==== Sys2Proof/Machine/Operands.lean ====
section
/-! DEFINITION. Channel arithmetic (R10 to R12), the hash (R141, R142), and the pixel each chunk's operands stand for (R202 to
R207). -/

namespace Sys2Proof.Machine

/-- R11: `wrap8`, the `u8` congruent to `x` modulo 256. -/
def wrap8 (x : Int) : Byte := BitVec.ofInt 8 x

/-- R11: `add8`, a channel plus a signed delta, modulo 256. -/
def add8 (c : Byte) (d : Int) : Byte := wrap8 ((c.toNat : Int) + d)

/-- R11: `sub8`. -/
def sub8 (c e : Byte) : Byte := wrap8 ((c.toNat : Int) - (e.toNat : Int))

/-- R10: `s8`, a byte read as two's complement. -/
def s8 (v : Byte) : Int := if v.toNat < 128 then (v.toNat : Int) else (v.toNat : Int) - 256

/-- R12: `delta`, the difference of two channels as a signed 8-bit value. -/
def delta (c e : Byte) : Int := s8 (sub8 c e)

/-- R142: the spec's default hash, the channels unsigned and the sum not truncated. -/
def publicHash (p : Pixel) : BitVec 6 :=
  BitVec.ofNat 6 (3 * p.r.toNat + 5 * p.g.toNat + 7 * p.b.toNat + 11 * p.a.toNat)

/-- R141: `HASH`, the slot of a pixel. -/
def HashFn.slot : HashFn → Pixel → BitVec 6
  | .publicFormat, p => publicHash p
  | .unstated, p => Config.hash p

/-- R202: the `RGB` pixel; alpha comes from `PREV`. -/
def rgbPixel (prev : Pixel) (r g b : Byte) : Pixel := ⟨r, g, b, prev.a⟩

/-- R205: the `Diff` pixel; alpha unchanged. -/
def diffPixel (prev : Pixel) (dr dg db : Int) : Pixel :=
  ⟨add8 prev.r dr, add8 prev.g dg, add8 prev.b db, prev.a⟩

/-- R206: the `Luma` pixel; `dr` and `db` are formed as integers before the modular addition. -/
def lumaPixel (prev : Pixel) (dg drDg dbDg : Int) : Pixel :=
  ⟨add8 prev.r (drDg + dg), add8 prev.g dg, add8 prev.b (dbDg + dg), prev.a⟩

/-- R168: every delta fits `Diff`. -/
def diffFits (dr dg db : Int) : Bool :=
  (-2 ≤ dr && dr ≤ 1) && (-2 ≤ dg && dg ≤ 1) && (-2 ≤ db && db ≤ 1)

/-- R169: the deltas fit `Luma`, on integer differences (D8, log 13). -/
def lumaFits (dr dg db : Int) : Bool :=
  (-32 ≤ dg && dg ≤ 31) && (-8 ≤ dr - dg && dr - dg ≤ 7) && (-8 ≤ db - dg && db - dg ≤ 7)

/-- R167 to R171: source step 4, the chunk of a pixel that missed the cache. -/
def deltaChunk (prev p : Pixel) : Instr :=
  if p.a = prev.a then
    let dr := delta p.r prev.r
    let dg := delta p.g prev.g
    let db := delta p.b prev.b
    if diffFits dr dg db then .diff dr dg db
    else if lumaFits dr dg db then .luma dg (dr - dg) (db - dg)
    else .rgb p.r p.g p.b
  else .rgba p.r p.g p.b p.a

end Sys2Proof.Machine
end

