-- ==== Sys2Proof/Machine/Flags.lean ====
section
/-! DEFINITION. There are no arithmetic flags and no condition codes (R26): the only status is `STATUS`. Here are the tests
that decide it, and the numbers of R260. -/

namespace Sys2Proof.Machine

/-- R260, D14: the code of an error kind. -/
def ErrorKind.code : ErrorKind → Nat
  | .malformedHeader => 1
  | .missingEndMarker => 2
  | .truncatedStream => 3
  | .sizeMismatch => 4

/-- R260: the error code of a `STATUS`; 0 when it is not `Fault`. -/
def Status.code : Status → Nat
  | .idle => 0
  | .running => 0
  | .done => 0
  | .fault k => k.code

/-- R209, R213: `STATUS` of a decoder whose output count is `outcnt`: decoding stops when the count reaches `expected`. -/
def decoderStatus (outcnt expected : Nat) : Status := if outcnt = expected then .done else .running

/-- R120, R124, R125: the domain check of the header fields, channel count first; `none` when they are legal. -/
def headerDefect (channels colorspace : Byte) : Option HeaderDefect :=
  if channels ≠ 3 ∧ channels ≠ 4 then some .badChannels
  else if colorspace ≠ 0 ∧ colorspace ≠ 1 then some .badColorSpace
  else none

end Sys2Proof.Machine
end

