-- ==== Sys2Proof/Machine/Ops.lean ====
section
/-! DEFINITION. The named operations over buffers and registers: reads and writes of a buffer (R14), the cache (R143, R144),
raising an error (R15, R269), pass start (R40), and the common end of every chunk (R208 to R211). -/

namespace Sys2Proof.Machine

/-! ### Buffers -/

/-- The cell at an offset; a cell that is not listed is blank (log 8). -/
def Store.read {α : Type} (blank : α) : Store α → Nat → α
  | [], _ => blank
  | (k, v) :: m, a => if k = a then v else Store.read blank m a

/-- Put a cell in front of cells with higher addresses; a blank cell is not listed. -/
def Store.cons {α : Type} [DecidableEq α] (blank : α) (a : Nat) (v : α) (m : Store α) : Store α :=
  if v = blank then m else (a, v) :: m

/-- Write one cell, keeping the canonical form. -/
def Store.write {α : Type} [DecidableEq α] (blank : α) : Store α → Nat → α → Store α
  | [], a, v => Store.cons blank a v []
  | (k, w) :: m, a, v =>
    if a < k then Store.cons blank a v ((k, w) :: m)
    else if a = k then Store.cons blank a v m
    else (k, w) :: Store.write blank m a v

/-- Write a string of cells from an offset up. -/
def Store.writeAll {α : Type} [DecidableEq α] (blank : α) : Store α → Nat → List α → Store α
  | m, _, [] => m
  | m, a, v :: vs => Store.writeAll blank (Store.write blank m a v) (a + 1) vs

/-- The `n` cells from an offset up, first cell first. -/
def Store.range {α : Type} (blank : α) (m : Store α) (a n : Nat) : List α :=
  (List.range n).map fun k => Store.read blank m (a + k)

/-- The cells at offsets `[lo, hi)`, renumbered from 0 (R52). -/
def Store.window {α : Type} : Store α → Nat → Nat → Store α
  | [], _, _ => []
  | (k, v) :: m, lo, hi =>
    if lo ≤ k ∧ k < hi then (k - lo, v) :: Store.window m lo hi else Store.window m lo hi

/-- A byte of a byte space. -/
def Memory.read (m : Memory) (a : Nat) : Byte := Store.read (0 : Byte) m a

/-- R14: `MemRead(S, addr, n)`. -/
def Memory.range (m : Memory) (a n : Nat) : List Byte := Store.range (0 : Byte) m a n

/-- R14: `MemWrite(S, addr, n, v)`. -/
def Memory.writeAll (m : Memory) (a : Nat) (v : List Byte) : Memory := Store.writeAll (0 : Byte) m a v

/-- R52: the bytes `[lo, hi)` of a byte space, renumbered from 0. -/
def Memory.window (m : Memory) (lo hi : Nat) : Memory := Store.window m lo hi

/-- A pixel of a pixel space. -/
def PixelMemory.read (m : PixelMemory) (a : Nat) : Pixel := Store.read Pixel.zero m a

/-- The `n` pixels from an index up. -/
def PixelMemory.range (m : PixelMemory) (a n : Nat) : List Pixel := Store.range Pixel.zero m a n

/-- Store a sequence of pixels from an index up. -/
def PixelMemory.writeAll (m : PixelMemory) (a : Nat) (v : List Pixel) : PixelMemory :=
  Store.writeAll Pixel.zero m a v

/-! ### The cache (R140 to R145) -/

/-- R143: `get(slot)`. -/
def Cache.get (c : Cache) (slot : BitVec 6) : Pixel := Vector.get c ⟨slot.toNat, slot.isLt⟩

/-- Write one slot. -/
def Cache.set (c : Cache) (slot : BitVec 6) (p : Pixel) : Cache := Vector.set c slot.toNat p slot.isLt

/-- R144: `put(pixel)`, a write to the slot of the pixel's own hash. -/
def Cache.put (h : HashFn) (c : Cache) (p : Pixel) : Cache := Cache.set c (HashFn.slot h p) p

/-- R145: the hit test, all four channels. -/
def Cache.hit (h : HashFn) (c : Cache) (p : Pixel) : Bool := Cache.get c (HashFn.slot h p) = p

/-! ### Errors and pass start -/

/-- R15, R269: raise `K(info)` in an instance. `STATUS` and `ERRINFO` are written, the operation in progress is over, and
nothing else changes: nothing is saved, no mode changes, control goes nowhere. There is no return (R270); the only way on is
a pass start, below. -/
def raise (a : Agent) (k : ErrorKind) (info : ErrInfo) (s : State) : State :=
  match a with
  | .encoder => { s with enc := { s.enc with status := .fault k, errinfo := info }, activity := .idle }
  | .decoder => { s with dec := { s.dec with status := .fault k, errinfo := info }, activity := .idle }

/-- R40: the registers of an encoder instance at pass start. -/
def freshEncoder (f : Format) : EncoderState :=
  { prev := f.initPrev
    cache := Cache.zero
    run := 0
    idx := 0
    outpos := 0
    status := .running
    errinfo := .none }

/-- R40, R213: the registers of a decoder instance at pass start; `Done` at once when no pixel is expected. -/
def freshDecoder (f : Format) (expected : Nat) : DecoderState :=
  { prev := f.initPrev
    cache := Cache.zero
    pos := 0
    outcnt := 0
    status := decoderStatus 0 expected
    errinfo := .none }

/-- R40: start an encoder pass, in any `STATUS` (R290). The buffers are not touched (log 9). -/
def passStartEnc (framed : Bool) (s : State) : State :=
  { s with enc := freshEncoder s.fmt, activity := .encodePixels framed }

/-- What follows a decoder step whose status is `st`: another, or nothing once the pass is over. -/
def decoderActivity (st : Status) : Activity := if st = .running then .decodeChunks else .idle

/-- R40: start a decoder pass, in any `STATUS` (R290). The buffers are not touched (log 9). -/
def passStartDec (s : State) : State :=
  { s with
    dec := freshDecoder s.fmt s.expected
    activity := decoderActivity (decoderStatus 0 s.expected) }

/-! ### The decoder's common epilogue -/

/-- R211: the pixels a chunk that stands for `n` emits: never more than are still owed. -/
def owed (n : Nat) (s : State) : Nat := min n (s.expected - s.dec.outcnt)

/-- R208, R209, R211, and the `POS` update of R201: the end of every chunk of `length` bytes that stands for `n` copies of
`px`. -/
def retire (length n : Nat) (px : Pixel) (s : State) : State :=
  let outcnt := s.dec.outcnt + owed n s
  let st := decoderStatus outcnt s.expected
  { s with
    dec :=
      { s.dec with
        prev := px
        cache := Cache.put s.fmt.hash s.dec.cache px
        pos := s.dec.pos + length
        outcnt := outcnt
        status := st }
    pixout := PixelMemory.writeAll s.pixout s.dec.outcnt (List.replicate (owed n s) px)
    activity := decoderActivity st }

/-- R210: `TruncatedStream(POS, OUTCNT)`. -/
def raiseTruncated (s : State) : State :=
  raise .decoder .truncatedStream (.truncated s.dec.pos s.dec.outcnt) s

/-- R201, R210: execute a chunk of `length` bytes that stands for `n` copies of `px`: whole, or not at all when its bytes
are not all there. -/
def runChunk (length n : Nat) (px : Pixel) (s : State) : State :=
  if s.len < s.dec.pos + length then raiseTruncated s else retire length n px s

end Sys2Proof.Machine
end

