-- ==== Sys2Proof/Machine/CacheRef.lean ====
section
/-! DEFINITION. The cache reference: `Index`. -/

namespace Sys2Proof.Machine

/-- R204: `Index{slot}`; no check is made that the slot was ever written. -/
def execIndex (slot : BitVec 6) (s : State) : Host.Outcome State Fault Refusal :=
  .next (runChunk 1 1 (Cache.get s.dec.cache slot) s)

end Sys2Proof.Machine
end

