-- ==== Sys2Proof/Machine/Delta.lean ====
section
/-! DEFINITION. The delta chunks: `Diff` and `Luma`. -/

namespace Sys2Proof.Machine

/-- R205: `Diff{dr,dg,db}`. -/
def execDiff (dr dg db : Int) (s : State) : Host.Outcome State Fault Refusal :=
  .next (runChunk 1 1 (diffPixel s.dec.prev dr dg db) s)

/-- R206: `Luma{dg,dr_minus_dg,db_minus_dg}`. -/
def execLuma (dg drDg dbDg : Int) (s : State) : Host.Outcome State Fault Refusal :=
  .next (runChunk 2 1 (lumaPixel s.dec.prev dg drDg dbDg) s)

end Sys2Proof.Machine
end

