-- ==== Sys2Proof/Machine/Framing.lean ====
section
/-! DEFINITION. The complete stream: what reading a header and an end marker does (`decode`, R241), and what building them
does (`encode`, R240). -/

namespace Sys2Proof.Machine

/-! ### decode -/

/-- R120, the part after the magic: the domain checks, then the header registers; `decode` goes on to the end marker
(R241). On a raise the header registers are not written. -/
def execHdr (w h : BitVec 32) (c cs : Byte) (s : State) : Host.Outcome State Fault Refusal :=
  match headerDefect c cs with
  | some d => .next (raise .decoder .malformedHeader (.header d) s)
  | none =>
    .next { s with width := w, height := h, channels := c, colorspace := cs, activity := .checkMarker }

/-- R241, R242, R244, R245, R248: with the end marker read, delimit the chunk region, set `LEN` and `EXPECTED`, and start
the decoder pass. A buffer with no room for the marker after the header raises `MissingEndMarker(SLEN)`. -/
def execEndMarker (s : State) : Host.Outcome State Fault Refusal :=
  if s.slen < 22 then .next (raise .decoder .missingEndMarker (.marker s.slen) s)
  else
    .next (passStartDec
      { s with
        chunks := Memory.window s.stream 14 (s.slen - 8)
        len := s.slen - 22
        expected := s.width.toNat * s.height.toNat })

/-! ### encode -/

/-- R124: `buildHeader` of the four header registers. -/
def buildHeader (f : Format) (w h : BitVec 32) (c cs : Byte) : Except HeaderDefect (List Byte) :=
  match headerDefect c cs with
  | some d => .error d
  | none => .ok (encode f (.hdr w h c cs))

/-- R120: `parseHeader` of a byte string, as one function: width, height, channel count, colour space. -/
def parseHeader (f : Format) (bs : List Byte) :
    Except HeaderDefect (BitVec 32 × BitVec 32 × Byte × Byte) :=
  match decodeHeader f bs with
  | .ok (.hdr w h c cs, _) =>
    match headerDefect c cs with
    | some d => .error d
    | none => .ok (w, h, c, cs)
  | .error .badMagic => .error .badMagic
  | _ => .error .shortHeader

/-- Whether the encoder pass of an `encode` call has consumed its pixels: `last` was seen, or the loop of R240 is at its end
(log 10). -/
def pixelsConsumed (s : State) : Bool := s.enc.status = .done || s.npix ≤ s.enc.idx

/-- R240, first two lines: build the header, which may raise `MalformedHeader` before any pixel is consumed, and start the
encoder pass. With no pixel the loop is empty. -/
def buildHeaderStep (s : State) : State :=
  match buildHeader s.fmt s.width s.height s.channels s.colorspace with
  | .error d => raise .encoder .malformedHeader (.header d) s
  | .ok bs =>
    { passStartEnc true { s with stream := Memory.writeAll [] 0 bs, slen := bs.length } with
      activity := if s.npix = 0 then .appendMarker else .encodePixels true }

/-- R240, last line: the chunk region and the end marker after the header; the call returns `STREAM[0:SLEN)`. -/
def appendMarkerStep (s : State) : State :=
  let tail := Memory.range s.encout 0 s.enc.outpos ++ encode s.fmt .endMarker
  { s with
    stream := Memory.writeAll s.stream 14 tail
    slen := 14 + tail.length
    activity := .streamReturned }

end Sys2Proof.Machine
end

