-- ==== Sys2Proof/Machine/Literal.lean ====
section
/-! DEFINITION. The literal chunks: `RGB` and `RGBA`. -/

namespace Sys2Proof.Machine

/-- R202: `RGB{r,g,b}`; alpha is `PREV.a`. -/
def execRgb (r g b : Byte) (s : State) : Host.Outcome State Fault Refusal :=
  .next (runChunk 4 1 (rgbPixel s.dec.prev r g b) s)

/-- R203: `RGBA{r,g,b,a}`; it reads neither `PREV` nor `CACHE`. -/
def execRgba (r g b a : Byte) (s : State) : Host.Outcome State Fault Refusal :=
  .next (runChunk 5 1 ⟨r, g, b, a⟩ s)

end Sys2Proof.Machine
end

