-- ==== Sys2Proof/Machine/RunLength.lean ====
section
/-! DEFINITION. The run: `Run`. -/

namespace Sys2Proof.Machine

/-- R207: `Run{count}`, `PREV` emitted `count` times in one step, subject to R211. -/
def execRun (count : Nat) (s : State) : Host.Outcome State Fault Refusal :=
  .next (runChunk 1 count s.dec.prev s)

end Sys2Proof.Machine
end

