-- ==== Sys2Proof/Machine/Encoder.lean ====
section
/-! DEFINITION. The ChunkEncoder: one step consumes one pixel (R160 to R175). -/

namespace Sys2Proof.Machine

/-- R14: `Emit`, the encoder's only write. -/
def emit (bs : List Byte) (s : State) : State :=
  { s with
    encout := Memory.writeAll s.encout s.enc.outpos bs
    enc := { s.enc with outpos := s.enc.outpos + bs.length } }

/-- Emit the bytes of a chunk. -/
def emitChunk (i : Instr) (s : State) : State := emit (encode s.fmt i) s

/-- `RUN <- v`. -/
def setRun (v : BitVec 6) (s : State) : State := { s with enc := { s.enc with run := v } }

/-- R163: the flush, `Run{RUN}` and then `RUN <- 0`. -/
def flushRun (s : State) : State := setRun 0 (emitChunk (.run s.enc.run.toNat) s)

/-- R162: source step 1, run extension. The flush test uses the incremented counter. -/
def extendRun (last : Bool) (s : State) : State :=
  let t := setRun (s.enc.run + 1) s
  if t.enc.run = 62 ∨ last then flushRun t else t

/-- R164: source step 2, a pending run is flushed before a different pixel. -/
def flushPending (s : State) : State := if s.enc.run = 0 then s else flushRun s

/-- R175, rows 2 to 6: the chunk of a pixel that differs from `PREV`. -/
def newPixelChunk (h : HashFn) (c : Cache) (prev p : Pixel) : Instr :=
  if Cache.hit h c p then .index (HashFn.slot h p) else deltaChunk prev p

/-- R166: the cache is written on a miss only, with the pixel in its own slot. -/
def missWrite (h : HashFn) (c : Cache) (p : Pixel) : Cache :=
  if Cache.hit h c p then c else Cache.put h c p

/-- R165 to R172: source steps 3 to 5. The probe and the deltas read the cache and `PREV` before either is written (R297);
`PREV` follows an `Index` too (C1). -/
def encodeNew (p : Pixel) (s : State) : State :=
  let t := emitChunk (newPixelChunk s.fmt.hash s.enc.cache s.enc.prev p) s
  { t with enc := { t.enc with cache := missWrite s.fmt.hash s.enc.cache p, prev := p } }

/-- R161: `EncStep(p, last)`. -/
def encStep (p : Pixel) (last : Bool) (s : State) : State :=
  let t := if p = s.enc.prev then extendRun last s else encodeNew p (flushPending s)
  { t with
    enc := { t.enc with idx := t.enc.idx + 1, status := if last then .done else t.enc.status } }

/-- R160: the `last` input of the step that consumes pixel `IDX`. -/
def lastInput (s : State) : Bool := s.lastAt = some s.enc.idx

/-- What follows an encoder step: another, or the end of the pass (R174), or of the loop of R240. -/
def encoderActivity (framed : Bool) (s : State) : Activity :=
  if framed then (if pixelsConsumed s then .appendMarker else .encodePixels true)
  else if s.enc.status = .done then .idle else .encodePixels false

/-- R160, R240: the step of an encoder pass, the pixel `PIXIN[IDX]` and `last` presented by the host. -/
def encodePixelStep (framed : Bool) (s : State) : State :=
  let t := encStep (PixelMemory.read s.pixin s.enc.idx) (lastInput s) s
  { t with activity := encoderActivity framed t }

/-- R26, R160: a step of an encoder pass is enabled only while `STATUS` is `Running` and a pixel is there. -/
def encoderStep (framed : Bool) (s : State) : Host.Outcome State Fault Refusal :=
  if s.enc.status ≠ .running then .fault .noStepEnabled
  else if s.npix ≤ s.enc.idx then .fault .noPixelPresented
  else .next (encodePixelStep framed s)

end Sys2Proof.Machine
end

