-- ==== Sys2Proof/Machine/Fetch.lean ====
section
/-! DEFINITION. What a step of the decoding side executes: the bytes at the place the operation in progress reads next, given
to the decoder, or the error those bytes raise. Also where the host lays one row of the opcode table for the next step. -/

namespace Sys2Proof.Machine

/-- What the decoding side reads: an instruction, or an error to raise. -/
inductive Fetched where
  | run (i : Instr)
  | traps (k : ErrorKind) (info : ErrInfo)
  deriving DecidableEq, Repr

/-- R120 to R122: the first fourteen bytes of `STREAM`, or as many as there are. -/
def fetchHeader (s : State) : Fetched :=
  match decode s.fmt .header (Memory.range s.stream 0 (min 14 s.slen)) with
  | .ok (i, _) => .run i
  | .error .badMagic => .traps .malformedHeader (.header .badMagic)
  | .error _ => .traps .malformedHeader (.header .shortHeader)

/-- R242, R245: the last eight bytes of `STREAM`, when there is room for them after the header. -/
def fetchMarker (s : State) : Fetched :=
  if s.slen < 22 then .traps .missingEndMarker (.marker s.slen)
  else
    match decode s.fmt .marker (Memory.range s.stream (s.slen - 8) 8) with
    | .ok (i, _) => .run i
    | .error _ => .traps .missingEndMarker (.marker s.slen)

/-- R201, R210: the chunk at `POS`, from the bytes of `CHUNKS` that are left (five at most, the longest chunk). -/
def fetchChunk (s : State) : Fetched :=
  match decode s.fmt .chunk (Memory.range s.chunks s.dec.pos (min 5 (s.len - s.dec.pos))) with
  | .ok (i, _) => .run i
  | .error _ => .traps .truncatedStream (.truncated s.dec.pos s.dec.outcnt)

/-- Lay bytes where the step at a place of the stream fetches them, and start the operation that fetches there (log 6). For a
chunk: at `POS` of `CHUNKS`, the pass `Running` with a pixel owed. For the header: at offset 0 of `STREAM`. For the end
marker: at the last eight bytes of `STREAM`. -/
def placeAt (site : Site) (bs : List Byte) (s : State) : State :=
  match site with
  | .chunk =>
    { s with
      chunks := Memory.writeAll s.chunks s.dec.pos bs
      len := max s.len (s.dec.pos + bs.length)
      expected := max s.expected (s.dec.outcnt + 1)
      dec := { s.dec with status := .running }
      activity := .decodeChunks }
  | .header =>
    { s with
      stream := Memory.writeAll s.stream 0 bs
      slen := max s.slen bs.length
      activity := .parseHeader }
  | .marker =>
    { s with
      stream := Memory.writeAll s.stream (max s.slen 22 - 8) bs
      slen := max s.slen 22
      activity := .checkMarker }

end Sys2Proof.Machine
end

