-- ==== Sys2Proof/Machine/HostCall.lean ====
section
/-! DEFINITION. The host (R311): what a caller does to the machine before an operation and reads from it after. None of this
is a step (log 6). -/

namespace Sys2Proof.Machine

/-- A buffer that holds a byte string from offset 0. -/
def bufferOf (bs : List Byte) : Memory := Memory.writeAll [] 0 bs

/-- A buffer that holds a pixel sequence from index 0. -/
def pixelsOf (ps : List Pixel) : PixelMemory := PixelMemory.writeAll [] 0 ps

/-- Premise `LastExact` (R312): `last` on pixel `n - 1` and only there; with no pixel there is none (R174). -/
def lastOf : Nat → Option Nat
  | 0 => none
  | n + 1 => some n

/-- R240, R311: call `encode` on an image. -/
def hostEncode (w h : BitVec 32) (c cs : Byte) (pixels : List Pixel) (s : State) : State :=
  { s with
    width := w
    height := h
    channels := c
    colorspace := cs
    pixin := pixelsOf pixels
    npix := pixels.length
    lastAt := lastOf pixels.length
    activity := .buildHeader }

/-- R241, R311: call `decode` on a byte string. -/
def hostDecode (bytes : List Byte) (s : State) : State :=
  { s with stream := bufferOf bytes, slen := bytes.length, activity := .parseHeader }

/-- R292, R311: drive the chunk decoder directly. -/
def hostStartDecoder (chunks : List Byte) (expected : Nat) (s : State) : State :=
  passStartDec { s with chunks := bufferOf chunks, len := chunks.length, expected := expected }

/-- R160, R293: drive the chunk encoder directly, `last` on the pixel at `lastAt`. -/
def hostStartEncoder (pixels : List Pixel) (lastAt : Option Nat) (s : State) : State :=
  passStartEnc false { s with pixin := pixelsOf pixels, npix := pixels.length, lastAt := lastAt }

/-- Whether what was started last is an encoder pass: one is in progress, or its `encode` call is at or past its last step. -/
def encoderPassStarted (a : Activity) : Bool :=
  match a with
  | .idle => false
  | .parseHeader => false
  | .checkMarker => false
  | .decodeChunks => false
  | .buildHeader => false
  | .encodePixels _ => true
  | .appendMarker => true
  | .streamReturned => true

/-- R174: the pass was given no pixel, so no step carries `last` and it is over while `Running`. A call that has only set `NPIX`
has started no pass (R290). -/
def emptyEncoderPass (s : State) : Bool :=
  s.enc.status = .running && s.npix = 0 && encoderPassStarted s.activity

/-- R174, R295: the result of an encoder pass, `ENCOUT[0:OUTPOS)`, on `Done`; also of a pass that was given no pixel, which the
host reads without any step. A pass that is not over, or was abandoned, has none (R290). -/
def encoderOutput (s : State) : Option (List Byte) :=
  if s.enc.status = .done ∨ emptyEncoderPass s = true then some (Memory.range s.encout 0 s.enc.outpos) else none

/-- R209, R295, R267: the result of a decoder pass, `PIXOUT[0:EXPECTED)`, on `Done` only. -/
def decoderOutput (s : State) : Option (List Pixel) :=
  if s.dec.status = .done then some (PixelMemory.range s.pixout 0 s.expected) else none

/-- R240: the byte string an `encode` call has returned. -/
def encodeResult (s : State) : Option (List Byte) :=
  if s.activity = .streamReturned then some (Memory.range s.stream 0 s.slen) else none

/-- R241, R267: the image a `decode` call has returned, once the call is over: all of it on `Done`, nothing otherwise. The host
reads it before its next call (R311). -/
def decodeResult (s : State) : Option (List Pixel × BitVec 32 × BitVec 32 × Byte × Byte) :=
  if s.activity = .idle then
    (decoderOutput s).map fun ps => (ps, s.width, s.height, s.channels, s.colorspace)
  else none

/-- R267: the error kind an instance surfaces, if it faulted. -/
def errorOf (st : Status) : Option ErrorKind :=
  match st with
  | .fault k => some k
  | .idle => none
  | .running => none
  | .done => none

end Sys2Proof.Machine
end

