-- ==== Sys2Proof/Machine/Step.lean ====
section
/-! DEFINITION. One step of the machine: the step of the operation in progress (R240, R241). -/

namespace Sys2Proof.Machine

/-- Execute what was fetched, or raise the error the bytes stand for. -/
def runFetched (f : Fetched) (s : State) : Host.Outcome State Fault Refusal :=
  match f with
  | .run i => exec i s
  | .traps k info => .next (raise .decoder k info s)

/-- One step: of `decode` (parse the header, check the marker, then one chunk a step while `STATUS` is `Running`), of
`encode` (build the header, then one pixel a step, then append the marker), or of a bare pass. -/
def step (s : State) : Host.Outcome State Fault Refusal :=
  match s.activity with
  | .idle => .fault .noStepEnabled
  | .parseHeader => runFetched (fetchHeader s) s
  | .checkMarker => runFetched (fetchMarker s) s
  | .decodeChunks => if s.dec.status = .running then runFetched (fetchChunk s) s else .fault .noStepEnabled
  | .buildHeader => .next (buildHeaderStep s)
  | .encodePixels framed => encoderStep framed s
  | .appendMarker => .next (appendMarkerStep s)
  | .streamReturned => .fault .noStepEnabled

/-- The state in which the very next step fetches and runs the row's instruction (log 6, log 15). -/
def State.withFetchWord (s : State) (nbits w : Nat) : State :=
  placeAt (tableRow nbits w).1 (tableRow nbits w).2 s

end Sys2Proof.Machine
end

