-- ==== Sys2Proof/Safety.lean ====
section
/-! DEFINITION. What claims speak of: the launch premises (R312), the slot discipline (R146), the invariant of the machine, and
the whole effect of a completed chunk, of emitted bytes and of a raised error, field by field. -/

namespace Sys2Proof.Machine

/-! ### Premises (R312) -/

/-- R148, premise `HashAdmissible`. -/
abbrev HashAdmissible (f : Format) : Prop :=
  f.initPrev = Pixel.zero ∨ HashFn.slot f.hash f.initPrev ≠ HashFn.slot f.hash Pixel.zero

/-- R27, R120: the header fields are in their domains. -/
abbrev HeaderLegal (c cs : Byte) : Prop := (c = 3 ∨ c = 4) ∧ (cs = 0 ∨ cs = 1)

/-- R201: a decoder step is enabled, and so a pixel is owed. -/
abbrev DecoderEnabled (s : State) : Prop :=
  s.activity = .decodeChunks ∧ s.dec.status = .running ∧ s.dec.outcnt < s.expected

/-- R160, R161: an encoder step is enabled and has a pixel. -/
abbrev EncoderEnabled (framed : Bool) (s : State) : Prop :=
  s.activity = .encodePixels framed ∧ s.enc.status = .running ∧ s.enc.idx < s.npix

/-! ### The invariant -/

/-- R146: every slot is `ZERO` or holds a pixel whose hash is that slot. -/
abbrev SlotDiscipline (h : HashFn) (c : Cache) : Prop :=
  ∀ slot : BitVec 6, Cache.get c slot = Pixel.zero ∨ HashFn.slot h (Cache.get c slot) = slot

/-- Every buffer is in canonical form. -/
structure BuffersWf (s : State) : Prop where
  stream : Memory.wf s.stream
  chunks : Memory.wf s.chunks
  encout : Memory.wf s.encout
  pixin : PixelMemory.wf s.pixin
  pixout : PixelMemory.wf s.pixout

/-- What every step keeps. -/
structure Inv (s : State) : Prop where
  /-- the canonical form of the five buffers (log 8) -/
  buffers : BuffersWf s
  /-- R146, in the encoder -/
  encSlots : SlotDiscipline s.fmt.hash s.enc.cache
  /-- R146, in the decoder -/
  decSlots : SlotDiscipline s.fmt.hash s.dec.cache
  /-- R22, R173(a): `0 <= RUN <= 61` between steps -/
  run : s.enc.run.toNat ≤ 61
  /-- R173(d): a run counts consumed pixels -/
  runIdx : s.enc.run.toNat ≤ s.enc.idx
  /-- R173(d): in a pass, the last `RUN` consumed pixels all equal `PREV` -/
  pending : ∀ framed, s.activity = .encodePixels framed →
    ∀ k, k < s.enc.idx → s.enc.idx ≤ k + s.enc.run.toNat → PixelMemory.read s.pixin k = s.enc.prev
  /-- R173(e): no run is pending after the step with `last` -/
  flushed : s.enc.status = .done → s.enc.run = 0
  /-- R50: in a pass, `IDX` stays in `PIXIN` -/
  idx : ∀ framed, s.activity = .encodePixels framed → s.enc.idx ≤ s.npix
  /-- R240: at most five bytes a pixel, a pending run's flush byte counted -/
  outpos : s.enc.outpos + s.enc.run.toNat ≤ 5 * s.enc.idx
  /-- R23, R210: `POS` stays in `CHUNKS` -/
  pos : s.dec.pos ≤ s.len
  /-- R211: `OUTCNT` never passes `EXPECTED` -/
  outcnt : s.dec.outcnt ≤ s.expected
  /-- R201: a running decoder owes a pixel -/
  owes : s.dec.status = .running → s.dec.outcnt < s.expected
  /-- R209: `Done` is the count reached -/
  complete : s.dec.status = .done → s.dec.outcnt = s.expected
  /-- R120: once `decode` has parsed the header, its fields are legal -/
  header : s.activity = .checkMarker → HeaderLegal s.channels s.colorspace
  /-- R264: `SizeMismatch` is never raised -/
  noSizeMismatch : s.enc.status ≠ .fault .sizeMismatch ∧ s.dec.status ≠ .fault .sizeMismatch

/-! ### Effects, field by field -/

/-- Everything outside the decoder instance, the pixels out and the operation in progress is as before. -/
structure SameButDecoder (s t : State) : Prop where
  fmt : t.fmt = s.fmt
  enc : t.enc = s.enc
  header : t.width = s.width ∧ t.height = s.height ∧ t.channels = s.channels ∧ t.colorspace = s.colorspace
  control : t.expected = s.expected ∧ t.len = s.len ∧ t.slen = s.slen ∧ t.npix = s.npix ∧ t.lastAt = s.lastAt
  bytes : t.stream = s.stream ∧ t.chunks = s.chunks ∧ t.encout = s.encout
  pixin : t.pixin = s.pixin

/-- A chunk of `length` bytes that stands for `n` copies of `px` has executed from `s` to `t` (R201, R208, R209, R211): the
registers it writes, the pixels it stores, and that nothing else changes. -/
structure ChunkRetired (s t : State) (length n : Nat) (px : Pixel) : Prop where
  /-- `POS <- POS + L` -/
  pos : t.dec.pos = s.dec.pos + length
  /-- `OUTCNT <- OUTCNT + m`, `m` the pixels owed at most -/
  outcnt : t.dec.outcnt = s.dec.outcnt + min n (s.expected - s.dec.outcnt)
  /-- `PREV <- px` -/
  prev : t.dec.prev = px
  /-- `CACHE[HASH(px)] <- px` -/
  slot : Cache.get t.dec.cache (HashFn.slot s.fmt.hash px) = px
  /-- no other slot changes -/
  slots : ∀ k, k ≠ HashFn.slot s.fmt.hash px → Cache.get t.dec.cache k = Cache.get s.dec.cache k
  /-- `Done` when the count is reached, `Running` otherwise -/
  status : t.dec.status = if t.dec.outcnt = s.expected then .done else .running
  errinfo : t.dec.errinfo = s.dec.errinfo
  /-- the pass goes on while `Running` -/
  activity : t.activity = if t.dec.outcnt = s.expected then .idle else .decodeChunks
  /-- the pixels stored -/
  stored : ∀ k, s.dec.outcnt ≤ k → k < t.dec.outcnt → PixelMemory.read t.pixout k = px
  /-- every other pixel of `PIXOUT` is unchanged -/
  kept : ∀ k, k < s.dec.outcnt ∨ t.dec.outcnt ≤ k → PixelMemory.read t.pixout k = PixelMemory.read s.pixout k
  frame : SameButDecoder s t

/-- A decoder-side error has been raised from `s` to `t` (R15, R269): `STATUS` and `ERRINFO` are written, the operation is
over, and nothing else changes. -/
structure DecoderRaised (s t : State) (k : ErrorKind) (info : ErrInfo) : Prop where
  status : t.dec.status = .fault k
  errinfo : t.dec.errinfo = info
  activity : t.activity = .idle
  prev : t.dec.prev = s.dec.prev
  cache : t.dec.cache = s.dec.cache
  counts : t.dec.pos = s.dec.pos ∧ t.dec.outcnt = s.dec.outcnt
  pixout : t.pixout = s.pixout
  frame : SameButDecoder s t

/-- Everything outside the encoder instance, the bytes out and the operation in progress is as before. -/
structure SameButEncoder (s t : State) : Prop where
  fmt : t.fmt = s.fmt
  dec : t.dec = s.dec
  header : t.width = s.width ∧ t.height = s.height ∧ t.channels = s.channels ∧ t.colorspace = s.colorspace
  control : t.expected = s.expected ∧ t.len = s.len ∧ t.slen = s.slen ∧ t.npix = s.npix ∧ t.lastAt = s.lastAt
  bytes : t.stream = s.stream ∧ t.chunks = s.chunks
  pixels : t.pixin = s.pixin ∧ t.pixout = s.pixout

/-- The bytes `bs` have been appended to `ENCOUT` from `s` to `t` (R14): they lie at the old `OUTPOS` up, `OUTPOS` is past
them, and every other byte is unchanged. -/
structure Emitted (s t : State) (bs : List Byte) : Prop where
  outpos : t.enc.outpos = s.enc.outpos + bs.length
  stored : Memory.range t.encout s.enc.outpos bs.length = bs
  kept : ∀ a, a < s.enc.outpos ∨ t.enc.outpos ≤ a → Memory.read t.encout a = Memory.read s.encout a

/-- Apply a change of state to an outcome that is a next state. -/
def onNext (g : State → State) : Host.Outcome State Fault Refusal → Host.Outcome State Fault Refusal
  | .next s => .next (g s)
  | .fault r => .fault r
  | .refused r => .refused r

/-- R147: `CACHE[HASH(PREV)] == PREV`, or the encoder is before its first non-run step, where `PREV == INIT_PREV` and that
slot still holds `ZERO`. -/
abbrev EncoderRecent (s : State) : Prop :=
  Cache.get s.enc.cache (HashFn.slot s.fmt.hash s.enc.prev) = s.enc.prev ∨
    (s.enc.prev = s.fmt.initPrev ∧ Cache.get s.enc.cache (HashFn.slot s.fmt.hash s.fmt.initPrev) = Pixel.zero)

end Sys2Proof.Machine
end

