-- ==== Sys2Proof/Certificates/Slice0/Obligations.lean ====
section
/-! DEFINITION. The statements for the provers, from the numbered rules of spec/. Each names the rule it formalises. -/

open Sys2Proof Sys2Proof.Machine

/-! ## Encoding (30_encoding.md) -/

/-- R82 to R91: no bit of an encoding is dropped. Every well-formed instruction, encoded under any admissible choice of the
format constants and read at its own place, decodes to itself, and the bytes after it are left. -/
def Obligations.DecodeOfEncode : Prop :=
  ∀ (f : Format) (i : Instr) (rest : List Byte), i.wellFormed = true →
    decode f i.site (encode f i ++ rest) = .ok (i, rest)

/-- R81, R91, R92: the other direction. Whatever decodes is well-formed, belongs to the place it was read at, and its
encoding is the bytes that were read: each byte string has one reading. -/
def Obligations.EncodeOfDecode : Prop :=
  ∀ (f : Format) (site : Site) (bs rest : List Byte) (i : Instr), decode f site bs = .ok (i, rest) →
    i.site = site ∧ i.wellFormed = true ∧ bs = encode f i ++ rest

/-- R88, R93: the first byte alone decides a chunk's length `L`; with `L` bytes or more exactly `L` are consumed, whatever
the first byte is, and with fewer the only answer is `truncated`. -/
def Obligations.ChunkLengthFromFirstByte : Prop :=
  ∀ (f : Format) (b : Byte) (rest : List Byte),
    ((b :: rest).length < (chunkKind f b).length → decodeChunk f (b :: rest) = .error .truncated) ∧
    ((chunkKind f b).length ≤ (b :: rest).length →
      ∃ i, decodeChunk f (b :: rest) = .ok (i, (b :: rest).drop (chunkKind f b).length) ∧
        i.length = (chunkKind f b).length ∧ i.site = .chunk)

/-- R92, the opcode map. It holds of the spec's default tags, which are PRESUMED (log 1). -/
def Obligations.DefaultOpcodeMap : Prop :=
  ∀ b : Byte,
    (b.toNat ≤ 0x3F → chunkKind defaultFormat b = .index) ∧
    (0x40 ≤ b.toNat → b.toNat ≤ 0x7F → chunkKind defaultFormat b = .diff) ∧
    (0x80 ≤ b.toNat → b.toNat ≤ 0xBF → chunkKind defaultFormat b = .luma) ∧
    (0xC0 ≤ b.toNat → b.toNat ≤ 0xFD → chunkKind defaultFormat b = .run) ∧
    (b = 0xFE → chunkKind defaultFormat b = .rgb) ∧
    (b = 0xFF → chunkKind defaultFormat b = .rgba)

/-- Words written out in the spec's examples (R82 to R87, R89, R90) decode to what they stand for. They rest on the default
constants and field positions, which are PRESUMED (log 1, log 17). -/
def Obligations.SpelledWordsDecode : Prop :=
  decode defaultFormat .chunk [0xC1] = .ok (.run 2, []) ∧
  decode defaultFormat .chunk [0x09] = .ok (.index 9, []) ∧
  decode defaultFormat .chunk [0x75] = .ok (.diff 1 (-1) (-1), []) ∧
  decode defaultFormat .chunk [0xA0, 0x58] = .ok (.luma 0 (-3) 0, []) ∧
  decode defaultFormat .chunk [0xFE, 0x0A, 0x14, 0x1E] = .ok (.rgb 10 20 30, []) ∧
  decode defaultFormat .chunk [0xFF, 0x05, 0x05, 0x05, 0x80] = .ok (.rgba 5 5 5 128, []) ∧
  decode defaultFormat .header
    [0x71, 0x6F, 0x69, 0x66, 0x00, 0x00, 0x00, 0x02, 0x00, 0x00, 0x00, 0x01, 0x04, 0x00] = .ok (.hdr 2 1 4 0, []) ∧
  decode defaultFormat .marker [0x00, 0x00, 0x00, 0x00, 0x00, 0x00, 0x00, 0x01] = .ok (.endMarker, [])

/-! ## Header codec (40_header_codec.md) -/

/-- R126: the header round trip, both directions. -/
def Obligations.HeaderRoundTrip : Prop :=
  (∀ (f : Format) (w h : BitVec 32) (c cs : Byte), HeaderLegal c cs →
    ∃ bs, buildHeader f w h c cs = .ok bs ∧ bs.length = 14 ∧ parseHeader f bs = .ok (w, h, c, cs)) ∧
  (∀ (f : Format) (bs : List Byte) (w h : BitVec 32) (c cs : Byte), parseHeader f bs = .ok (w, h, c, cs) →
    buildHeader f w h c cs = .ok (bs.take 14))

/-- R120 to R122, R127: `parseHeader` makes exactly these checks, in this order, and accepts every width and height. -/
def Obligations.ParseHeaderChecks : Prop :=
  ∀ (f : Format) (bs : List Byte),
    parseHeader f bs =
      if bs.length < 14 then .error .shortHeader
      else if bs.take 4 ≠ be32 f.magic then .error .badMagic
      else if bs.getD 12 0 ≠ 3 ∧ bs.getD 12 0 ≠ 4 then .error .badChannels
      else if bs.getD 13 0 ≠ 0 ∧ bs.getD 13 0 ≠ 1 then .error .badColorSpace
      else .ok (unbe32 (bs.getD 4 0) (bs.getD 5 0) (bs.getD 6 0) (bs.getD 7 0),
        unbe32 (bs.getD 8 0) (bs.getD 9 0) (bs.getD 10 0) (bs.getD 11 0), bs.getD 12 0, bs.getD 13 0)

/-- R128: `parseHeader` does not look at the bytes after offset 13. -/
def Obligations.ParseHeaderReadsFourteenBytes : Prop :=
  ∀ (f : Format) (bs tail tail' : List Byte), bs.length = 14 →
    parseHeader f (bs ++ tail) = parseHeader f (bs ++ tail')

/-- R124, R125: `buildHeader` raises on an illegal channel count, then on an illegal colour space, and is otherwise the
fourteen bytes of the layout. -/
def Obligations.BuildHeaderBytes : Prop :=
  ∀ (f : Format) (w h : BitVec 32) (c cs : Byte),
    (c ≠ 3 → c ≠ 4 → buildHeader f w h c cs = .error .badChannels) ∧
    (c = 3 ∨ c = 4 → cs ≠ 0 → cs ≠ 1 → buildHeader f w h c cs = .error .badColorSpace) ∧
    (HeaderLegal c cs → buildHeader f w h c cs = .ok (be32 f.magic ++ be32 w ++ be32 h ++ [c, cs]))

/-! ## Arithmetic and the cache (00_scope.md, 41_pixel_cache.md) -/

/-- R12: the signed delta, its range, the examples, and that adding it back gives the channel. -/
def Obligations.DeltaAddsBack : Prop :=
  (∀ c e : Byte, delta c e = s8 (sub8 c e) ∧ -128 ≤ delta c e ∧ delta c e ≤ 127 ∧
    (delta c e - ((c.toNat : Int) - (e.toNat : Int))) % 256 = 0 ∧ add8 e (delta c e) = c) ∧
  delta 0 255 = 1 ∧ delta 255 0 = -1 ∧ delta 128 0 = -128 ∧ delta 0 128 = -128 ∧ delta 127 0 = 127

/-- R142: the default hash, and that its sum may be formed in wrapping 8-bit arithmetic. The formula is PRESUMED (log 1). -/
def Obligations.DefaultHashWraps : Prop :=
  ∀ p : Pixel,
    (HashFn.slot .publicFormat p).toNat = (3 * p.r.toNat + 5 * p.g.toNat + 7 * p.b.toNat + 11 * p.a.toNat) % 64 ∧
    HashFn.slot .publicFormat p = bits (3 * p.r + 5 * p.g + 7 * p.b + 11 * p.a) 0 6

/-- R143, R144: `put` writes the pixel to the slot of its own hash and changes no other slot; a fresh cache reads `ZERO`. -/
def Obligations.CachePutGet : Prop :=
  (∀ (h : HashFn) (c : Cache) (p : Pixel) (k : BitVec 6),
    Cache.get (Cache.put h c p) k = if k = HashFn.slot h p then p else Cache.get c k) ∧
  (∀ k : BitVec 6, Cache.get Cache.zero k = Pixel.zero)

/-- R176: the `Luma` test on wrapped differences accepts the same cases with the same values as the test on integers. -/
def Obligations.WrappedDifferencesAgree : Prop :=
  ∀ dr dg : Int, -32 ≤ dg → dg ≤ 31 → -128 ≤ dr → dr ≤ 127 →
    (-159 ≤ dr - dg ∧ dr - dg ≤ 159) ∧
    (dr - dg < -128 ∨ 127 < dr - dg →
      97 ≤ s8 (wrap8 (dr - dg)) ∧ s8 (wrap8 (dr - dg)) ≤ 127 ∨
        -128 ≤ s8 (wrap8 (dr - dg)) ∧ s8 (wrap8 (dr - dg)) ≤ -97) ∧
    ((-8 ≤ s8 (wrap8 (dr - dg)) ∧ s8 (wrap8 (dr - dg)) ≤ 7) ↔ (-8 ≤ dr - dg ∧ dr - dg ≤ 7)) ∧
    (-8 ≤ dr - dg → dr - dg ≤ 7 → s8 (wrap8 (dr - dg)) = dr - dg)

/-- R260, D14: the numbers of the error kinds, 0 when `STATUS` is not `Fault`.
The numbers are a decision of the spec (D14). -/
def Obligations.ErrorCodes : Prop :=
  Status.code .idle = 0 ∧ Status.code .running = 0 ∧ Status.code .done = 0 ∧
  Status.code (.fault .malformedHeader) = 1 ∧ Status.code (.fault .missingEndMarker) = 2 ∧
  Status.code (.fault .truncatedStream) = 3 ∧ Status.code (.fault .sizeMismatch) = 4 ∧
  ∀ st : Status, Status.code st ≠ 0 ↔ ∃ k, st = .fault k

/-! ## The six chunks (43_chunk_decoder.md) -/

/-- R202: `RGB{r,g,b}`. -/
def Obligations.RgbChunk : Prop :=
  ∀ (r g b : Byte) (s : State),
    (∀ (f : Format) (rest : List Byte),
      decodeChunk f (f.fullTags.rgb :: r :: g :: b :: rest) = .ok (.rgb r g b, rest)) ∧
    (s.len < s.dec.pos + 4 →
      ∃ t, exec (.rgb r g b) s = .next t ∧
        DecoderRaised s t .truncatedStream (.truncated s.dec.pos s.dec.outcnt)) ∧
    (s.dec.pos + 4 ≤ s.len → s.dec.outcnt < s.expected → PixelMemory.wf s.pixout →
      ∃ t, exec (.rgb r g b) s = .next t ∧ ChunkRetired s t 4 1 ⟨r, g, b, s.dec.prev.a⟩)

/-- R203: `RGBA{r,g,b,a}`. -/
def Obligations.RgbaChunk : Prop :=
  ∀ (r g b a : Byte) (s : State),
    (∀ (f : Format) (rest : List Byte),
      decodeChunk f (f.fullTags.rgba :: r :: g :: b :: a :: rest) = .ok (.rgba r g b a, rest)) ∧
    (s.len < s.dec.pos + 5 →
      ∃ t, exec (.rgba r g b a) s = .next t ∧
        DecoderRaised s t .truncatedStream (.truncated s.dec.pos s.dec.outcnt)) ∧
    (s.dec.pos + 5 ≤ s.len → s.dec.outcnt < s.expected → PixelMemory.wf s.pixout →
      ∃ t, exec (.rgba r g b a) s = .next t ∧ ChunkRetired s t 5 1 ⟨r, g, b, a⟩)

/-- R204: `Index{slot}`; the slot is the low 6 bits of the byte, and no check is made that it was written. -/
def Obligations.IndexChunk : Prop :=
  ∀ (slot : BitVec 6) (s : State),
    (∀ (f : Format) (b : Byte) (rest : List Byte), chunkKind f b = .index →
      decodeChunk f (b :: rest) = .ok (.index (BitVec.ofNat 6 b.toNat), rest)) ∧
    (s.len < s.dec.pos + 1 →
      ∃ t, exec (.index slot) s = .next t ∧
        DecoderRaised s t .truncatedStream (.truncated s.dec.pos s.dec.outcnt)) ∧
    (s.dec.pos + 1 ≤ s.len → s.dec.outcnt < s.expected → PixelMemory.wf s.pixout →
      ∃ t, exec (.index slot) s = .next t ∧ ChunkRetired s t 1 1 (Cache.get s.dec.cache slot))

/-- R205: `Diff{dr,dg,db}`; the sums wrap modulo 256, alpha is unchanged.
The places of the three fields in the byte are PRESUMED (D6, log 17). -/
def Obligations.DiffChunk : Prop :=
  ∀ (dr dg db : Int) (s : State),
    (∀ (f : Format) (b : Byte) (rest : List Byte), chunkKind f b = .diff →
      decodeChunk f (b :: rest) = .ok (.diff (((b.toNat / 16 % 4 : Nat) : Int) - 2) (((b.toNat / 4 % 4 : Nat) : Int) - 2)
        (((b.toNat % 4 : Nat) : Int) - 2), rest)) ∧
    (s.len < s.dec.pos + 1 →
      ∃ t, exec (.diff dr dg db) s = .next t ∧
        DecoderRaised s t .truncatedStream (.truncated s.dec.pos s.dec.outcnt)) ∧
    (s.dec.pos + 1 ≤ s.len → s.dec.outcnt < s.expected → PixelMemory.wf s.pixout →
      ∃ t px, exec (.diff dr dg db) s = .next t ∧ ChunkRetired s t 1 1 px ∧
        (px.r.toNat : Int) = (s.dec.prev.r.toNat + dr) % 256 ∧ (px.g.toNat : Int) = (s.dec.prev.g.toNat + dg) % 256 ∧
        (px.b.toNat : Int) = (s.dec.prev.b.toNat + db) % 256 ∧ px.a = s.dec.prev.a)

/-- R206: `Luma{dg,dr_minus_dg,db_minus_dg}`; `dr = (dr-dg)+dg` and `db = (db-dg)+dg` are added modulo 256.
The places of the two fields in the second byte are PRESUMED (D7, log 17). -/
def Obligations.LumaChunk : Prop :=
  ∀ (dg drDg dbDg : Int) (s : State),
    (∀ (f : Format) (b c : Byte) (rest : List Byte), chunkKind f b = .luma →
      decodeChunk f (b :: c :: rest) = .ok (.luma (((b.toNat % 64 : Nat) : Int) - 32) (((c.toNat / 16 : Nat) : Int) - 8)
        (((c.toNat % 16 : Nat) : Int) - 8), rest)) ∧
    (s.len < s.dec.pos + 2 →
      ∃ t, exec (.luma dg drDg dbDg) s = .next t ∧
        DecoderRaised s t .truncatedStream (.truncated s.dec.pos s.dec.outcnt)) ∧
    (s.dec.pos + 2 ≤ s.len → s.dec.outcnt < s.expected → PixelMemory.wf s.pixout →
      ∃ t px, exec (.luma dg drDg dbDg) s = .next t ∧ ChunkRetired s t 2 1 px ∧
        (px.r.toNat : Int) = (s.dec.prev.r.toNat + (drDg + dg)) % 256 ∧
        (px.g.toNat : Int) = (s.dec.prev.g.toNat + dg) % 256 ∧
        (px.b.toNat : Int) = (s.dec.prev.b.toNat + (dbDg + dg)) % 256 ∧ px.a = s.dec.prev.a)

/-- R207, R211: `Run{count}`; `PREV` is emitted `count` times in one step, but never more times than pixels are owed.
What an overshooting run does is a decision of the spec (D10). -/
def Obligations.RunChunk : Prop :=
  ∀ (count : Nat) (s : State),
    (∀ (f : Format) (b : Byte) (rest : List Byte), chunkKind f b = .run →
      decodeChunk f (b :: rest) = .ok (.run (b.toNat % 64 + 1), rest) ∧ b.toNat % 64 + 1 ≤ 62) ∧
    (s.len < s.dec.pos + 1 →
      ∃ t, exec (.run count) s = .next t ∧
        DecoderRaised s t .truncatedStream (.truncated s.dec.pos s.dec.outcnt)) ∧
    (s.dec.pos + 1 ≤ s.len → s.dec.outcnt < s.expected → PixelMemory.wf s.pixout →
      ∃ t, exec (.run count) s = .next t ∧ ChunkRetired s t 1 count s.dec.prev)

/-- R21, R203, R204: `RGBA` and `Index` do not read `PREV`. -/
def Obligations.RgbaAndIndexIgnorePrev : Prop :=
  ∀ (s : State) (q : Pixel),
    (∀ r g b a, s.dec.pos + 5 ≤ s.len →
      exec (.rgba r g b a) { s with dec := { s.dec with prev := q } } = exec (.rgba r g b a) s) ∧
    (∀ slot, s.dec.pos + 1 ≤ s.len →
      exec (.index slot) { s with dec := { s.dec with prev := q } } = exec (.index slot) s)

/-- R150: an `Index` chunk leaves the cache as it is, but for one case: the slot read held `ZERO` and is not `ZERO`'s own slot,
and then `ZERO` is written to `CACHE[HASH(ZERO)]`. -/
def Obligations.IndexKeepsCache : Prop :=
  ∀ (slot : BitVec 6) (s t : State), SlotDiscipline s.fmt.hash s.dec.cache → exec (.index slot) s = .next t →
    (∀ k, Cache.get t.dec.cache k = Cache.get s.dec.cache k) ∨
    (Cache.get s.dec.cache slot = Pixel.zero ∧ HashFn.slot s.fmt.hash Pixel.zero ≠ slot ∧
      ∀ k, Cache.get t.dec.cache k =
        if k = HashFn.slot s.fmt.hash Pixel.zero then Pixel.zero else Cache.get s.dec.cache k)

/-! ## The decoder step (43_chunk_decoder.md) -/

/-- A step runs the decoded instruction, and adds nothing around it: at the header, at the end marker and at a chunk, when
the bytes there decode to `i`, `step` is `exec i`.
The register `activity` is the model's own (log 5). -/
def Obligations.StepRunsDecoded : Prop :=
  (∀ (s : State) (i : Instr) (rest : List Byte), s.activity = .parseHeader →
    decode s.fmt .header (Memory.range s.stream 0 s.slen) = .ok (i, rest) → step s = exec i s) ∧
  (∀ (s : State) (i : Instr) (rest : List Byte), s.activity = .checkMarker → 22 ≤ s.slen →
    decode s.fmt .marker (Memory.range s.stream (s.slen - 8) 8) = .ok (i, rest) → step s = exec i s) ∧
  (∀ (s : State) (i : Instr) (rest : List Byte), s.activity = .decodeChunks → s.dec.status = .running →
    decode s.fmt .chunk (Memory.range s.chunks s.dec.pos (s.len - s.dec.pos)) = .ok (i, rest) → step s = exec i s)

/-- R210: both cases of truncation. The step raises `TruncatedStream(POS, OUTCNT)`, has no other effect, and the pixels already
in `PIXOUT` are not delivered. -/
def Obligations.StepRaisesTruncated : Prop :=
  ∀ s : State, DecoderEnabled s →
    (s.len ≤ s.dec.pos ∨
      s.len < s.dec.pos + (chunkKind s.fmt (Memory.read s.chunks s.dec.pos)).length) →
    ∃ t, step s = .next t ∧ DecoderRaised s t .truncatedStream (.truncated s.dec.pos s.dec.outcnt) ∧
      decoderOutput t = none

/-- R201: the whole step, from the bytes at `POS`. With `b` the first byte and the chunk complete, the step retires the chunk
that `b` selects, its pixel computed from the bytes, `PREV` and `CACHE` as the pseudocode says.
The places of the `Diff` and `Luma` fields are PRESUMED (log 17). -/
def Obligations.DecoderStep : Prop :=
  ∀ (s : State) (b : Byte), DecoderEnabled s → PixelMemory.wf s.pixout →
    b = Memory.read s.chunks s.dec.pos → s.dec.pos + (chunkKind s.fmt b).length ≤ s.len →
    ∃ t, step s = .next t ∧
      (b = s.fmt.fullTags.rgb → ChunkRetired s t 4 1
        ⟨Memory.read s.chunks (s.dec.pos + 1), Memory.read s.chunks (s.dec.pos + 2),
          Memory.read s.chunks (s.dec.pos + 3), s.dec.prev.a⟩) ∧
      (b = s.fmt.fullTags.rgba → ChunkRetired s t 5 1
        ⟨Memory.read s.chunks (s.dec.pos + 1), Memory.read s.chunks (s.dec.pos + 2),
          Memory.read s.chunks (s.dec.pos + 3), Memory.read s.chunks (s.dec.pos + 4)⟩) ∧
      (b ≠ s.fmt.fullTags.rgb → b ≠ s.fmt.fullTags.rgba → bits b 6 2 = s.fmt.tags.index →
        ChunkRetired s t 1 1 (Cache.get s.dec.cache (bits b 0 6))) ∧
      (b ≠ s.fmt.fullTags.rgb → b ≠ s.fmt.fullTags.rgba → bits b 6 2 = s.fmt.tags.diff →
        ChunkRetired s t 1 1
          ⟨add8 s.dec.prev.r ((bits b 4 2).toNat - 2), add8 s.dec.prev.g ((bits b 2 2).toNat - 2),
            add8 s.dec.prev.b ((bits b 0 2).toNat - 2), s.dec.prev.a⟩) ∧
      (b ≠ s.fmt.fullTags.rgb → b ≠ s.fmt.fullTags.rgba → bits b 6 2 = s.fmt.tags.luma →
        ∀ c, c = Memory.read s.chunks (s.dec.pos + 1) → ∀ dg : Int, dg = (bits b 0 6).toNat - 32 →
          ChunkRetired s t 2 1
            ⟨add8 s.dec.prev.r ((bits c 4 4).toNat - 8 + dg), add8 s.dec.prev.g dg,
              add8 s.dec.prev.b ((bits c 0 4).toNat - 8 + dg), s.dec.prev.a⟩) ∧
      (b ≠ s.fmt.fullTags.rgb → b ≠ s.fmt.fullTags.rgba → bits b 6 2 = tagRun →
        ChunkRetired s t 1 ((bits b 0 6).toNat + 1) s.dec.prev)

/-- R59, R212: a step that executes a chunk reads no byte of `CHUNKS` outside it. Any other contents there give the same
outcome. -/
def Obligations.ChunkReadsOnlyItsBytes : Prop :=
  ∀ (s : State) (m : Memory), DecoderEnabled s →
    s.dec.pos + (chunkKind s.fmt (Memory.read s.chunks s.dec.pos)).length ≤ s.len →
    (∀ k, k < (chunkKind s.fmt (Memory.read s.chunks s.dec.pos)).length →
      Memory.read m (s.dec.pos + k) = Memory.read s.chunks (s.dec.pos + k)) →
    step { s with chunks := m } = onNext (fun t => { t with chunks := m }) (step s)

/-- R214: a decoder step raises, or consumes at least one byte and stores at least one pixel, staying inside `CHUNKS` and
`EXPECTED`. -/
def Obligations.DecoderStepProgress : Prop :=
  ∀ s : State, DecoderEnabled s → ∃ t, step s = .next t ∧
    ((t.dec.status = .fault .truncatedStream ∧ t.dec.pos = s.dec.pos ∧ t.dec.outcnt = s.dec.outcnt) ∨
      (s.dec.pos < t.dec.pos ∧ t.dec.pos ≤ s.len ∧ s.dec.outcnt < t.dec.outcnt ∧ t.dec.outcnt ≤ s.expected ∧
        (t.dec.status = .running ∧ t.dec.outcnt < s.expected ∨ t.dec.status = .done ∧ t.dec.outcnt = s.expected)))

/-- R214, R307: a decoder pass ends, `Done` or `Fault(TruncatedStream)`, after at most as many steps as bytes are left plus
one, and at most as many as pixels are owed. -/
def Obligations.DecoderPassEnds : Prop :=
  ∀ s : State, DecoderEnabled s → s.dec.pos ≤ s.len →
    ∃ k t, k ≤ s.len - s.dec.pos + 1 ∧ k ≤ s.expected - s.dec.outcnt ∧ Host.Core.run Sys2Proof.core k s = .next t ∧
      (t.dec.status = .done ∧ t.dec.outcnt = s.expected ∨ t.dec.status = .fault .truncatedStream)

/-! ## Framing (44_stream_framing.md) -/

/-- R120, R123, R261: executing a header with legal fields writes the four header registers, and `decode` goes on to the end
marker; nothing else changes.
That the next step is the marker's check is the model's choice (log 5, log 14). -/
def Obligations.HeaderWritesRegisters : Prop :=
  ∀ (w h : BitVec 32) (c cs : Byte) (s : State), HeaderLegal c cs →
    exec (.hdr w h c cs) s =
      .next { s with width := w, height := h, channels := c, colorspace := cs, activity := .checkMarker }

/-- R120, R261, R268: executing a header with illegal fields raises `MalformedHeader`, the channel count tested first, and
writes no header register.
That the error is held in the decoder instance's `STATUS` and `ERRINFO`, whatever `STATUS` was, is the model's choice (log 14). -/
def Obligations.HeaderRaisesMalformed : Prop :=
  ∀ (w h : BitVec 32) (c cs : Byte) (s : State),
    (c ≠ 3 → c ≠ 4 → ∃ t, exec (.hdr w h c cs) s = .next t ∧
      DecoderRaised s t .malformedHeader (.header .badChannels)) ∧
    (c = 3 ∨ c = 4 → cs ≠ 0 → cs ≠ 1 → ∃ t, exec (.hdr w h c cs) s = .next t ∧
      DecoderRaised s t .malformedHeader (.header .badColorSpace))

/-- R120 to R122, R268: the first step of `decode` is `parseHeader` of `STREAM`: the registers it returns, or its error.
That this is a step of its own, and the decoder instance's `STATUS`, are the model's choice (log 14). -/
def Obligations.DecodeParsesHeader : Prop :=
  ∀ s : State, s.activity = .parseHeader →
    step s =
      match parseHeader s.fmt (Memory.range s.stream 0 s.slen) with
      | .ok (w, h, c, cs) =>
        .next { s with width := w, height := h, channels := c, colorspace := cs, activity := .checkMarker }
      | .error d =>
        .next { s with
          dec := { s.dec with status := .fault .malformedHeader, errinfo := .header d }
          activity := .idle }

/-- R241, R244, R248, R40, R213: executing the end marker delimits the chunk region, sets `LEN` and the exact `EXPECTED`, and
starts the decoder pass; nothing else changes.
That this is a step of its own is the model's choice (log 14), and so is that `PIXOUT` keeps what it held (log 9). -/
def Obligations.EndMarkerStartsPass : Prop :=
  ∀ s : State, 22 ≤ s.slen → ∃ t, exec .endMarker s = .next t ∧
    t.len = s.slen - 22 ∧ t.expected = s.width.toNat * s.height.toNat ∧
    (∀ k, k < t.len → Memory.read t.chunks k = Memory.read s.stream (14 + k)) ∧
    t.dec.prev = s.fmt.initPrev ∧ (∀ k, Cache.get t.dec.cache k = Pixel.zero) ∧ t.dec.pos = 0 ∧ t.dec.outcnt = 0 ∧
    t.dec.errinfo = .none ∧
    (t.expected = 0 → t.dec.status = .done ∧ t.activity = .idle) ∧
    (t.expected ≠ 0 → t.dec.status = .running ∧ t.activity = .decodeChunks) ∧
    t = { s with activity := t.activity, dec := t.dec, len := t.len, expected := t.expected, chunks := t.chunks }

/-- R242, R245: the marker is looked for in the last 8 bytes only; a buffer shorter than 22 bytes, or with other bytes there,
raises `MissingEndMarker(SLEN)`, and otherwise the pass starts.
That this is a step of its own is the model's choice (log 14). -/
def Obligations.DecodeChecksMarker : Prop :=
  ∀ s : State, s.activity = .checkMarker →
    (s.slen < 22 ∨ Memory.range s.stream (s.slen - 8) 8 ≠ [0, 0, 0, 0, 0, 0, 0, 1] →
      ∃ t, step s = .next t ∧ DecoderRaised s t .missingEndMarker (.marker s.slen)) ∧
    (22 ≤ s.slen → Memory.range s.stream (s.slen - 8) 8 = [0, 0, 0, 0, 0, 0, 0, 1] → step s = exec .endMarker s)

/-- R262, R245: executing the end marker in a buffer with no room for it raises `MissingEndMarker(SLEN)`.
That executing `END` tests `SLEN` itself, and that the error is held in the decoder instance before a pass, whatever `STATUS`
was, are the model's choice (log 14). -/
def Obligations.EndMarkerNeedsRoom : Prop :=
  ∀ s : State, s.slen < 22 → ∃ t, exec .endMarker s = .next t ∧
    DecoderRaised s t .missingEndMarker (.marker s.slen)

/-- R240, R124, R125: the first step of `encode`. Illegal header registers raise `MalformedHeader` before any pixel is
consumed; otherwise `STREAM` holds the 14 header bytes and the encoder pass starts (with no pixel, the loop is over).
That this is a step of its own, and the encoder instance's `STATUS`, are the model's choice (log 14), and so is that `ENCOUT`
keeps what it held (log 9). -/
def Obligations.EncodeBuildsHeader : Prop :=
  ∀ s : State, s.activity = .buildHeader → ∃ t, step s = .next t ∧
    (HeaderLegal s.channels s.colorspace →
      Memory.range t.stream 0 14 = be32 s.fmt.magic ++ be32 s.width ++ be32 s.height ++ [s.channels, s.colorspace] ∧
      t.slen = 14 ∧ t.enc.prev = s.fmt.initPrev ∧ (∀ k, Cache.get t.enc.cache k = Pixel.zero) ∧ t.enc.run = 0 ∧
      t.enc.idx = 0 ∧ t.enc.outpos = 0 ∧ t.enc.status = .running ∧ t.enc.errinfo = .none ∧
      (s.npix = 0 → t.activity = .appendMarker) ∧ (s.npix ≠ 0 → t.activity = .encodePixels true) ∧
      t = { s with activity := t.activity, enc := t.enc, stream := t.stream, slen := t.slen }) ∧
    (¬ HeaderLegal s.channels s.colorspace →
      t.enc.status = .fault .malformedHeader ∧
      t.enc.errinfo = .header (if s.channels = 3 ∨ s.channels = 4 then .badColorSpace else .badChannels) ∧
      t = { s with activity := .idle, enc := { s.enc with status := t.enc.status, errinfo := t.enc.errinfo } })

/-- R240, last line: the chunk region and the end marker follow the header, and the call returns `14 + OUTPOS + 8` bytes.
That this is a step of its own is the model's choice (log 14). -/
def Obligations.EncodeAppendsMarker : Prop :=
  ∀ s : State, s.activity = .appendMarker → Memory.wf s.stream → ∃ t, step s = .next t ∧
    t.slen = 14 + s.enc.outpos + 8 ∧
    encodeResult t = some (Memory.range s.stream 0 14 ++ Memory.range s.encout 0 s.enc.outpos
      ++ [0, 0, 0, 0, 0, 0, 0, 1]) ∧
    t = { s with activity := t.activity, stream := t.stream, slen := t.slen }

/-! ## The encoder (42_chunk_encoder.md) -/

/-- R161, R175: the whole encoder step. The bytes are those of the pseudocode, computed as numbers; the registers, the one
cache slot that may change, and that nothing else changes.
The places of the `Diff` and `Luma` fields are PRESUMED (log 17). -/
def Obligations.EncoderStepTable : Prop :=
  ∀ (p : Pixel) (last : Bool) (s t : State) (slot : BitVec 6) (dr dg db : Int),
    Memory.wf s.encout → s.enc.run.toNat ≤ 61 → t = encStep p last s → slot = HashFn.slot s.fmt.hash p →
    dr = delta p.r s.enc.prev.r → dg = delta p.g s.enc.prev.g → db = delta p.b s.enc.prev.b →
    SameButEncoder s t ∧ t.activity = s.activity ∧ t.enc.prev = p ∧ t.enc.idx = s.enc.idx + 1 ∧
    t.enc.status = (if last then .done else s.enc.status) ∧ t.enc.errinfo = s.enc.errinfo ∧
    (p = s.enc.prev →
      t.enc.cache = s.enc.cache ∧
      (s.enc.run.toNat + 1 = 62 ∨ last = true →
        t.enc.run = 0 ∧ Emitted s t [BitVec.ofNat 8 (0xC0 + s.enc.run.toNat)]) ∧
      (s.enc.run.toNat + 1 ≠ 62 → last = false → t.enc.run.toNat = s.enc.run.toNat + 1 ∧ Emitted s t [])) ∧
    (p ≠ s.enc.prev →
      t.enc.run = 0 ∧
      (∀ k, k ≠ slot → Cache.get t.enc.cache k = Cache.get s.enc.cache k) ∧ Cache.get t.enc.cache slot = p ∧
      ∃ flush chunk, Emitted s t (flush ++ chunk) ∧
        (s.enc.run = 0 → flush = []) ∧ (s.enc.run ≠ 0 → flush = [BitVec.ofNat 8 (0xC0 + (s.enc.run.toNat - 1))]) ∧
        (Cache.get s.enc.cache slot = p →
          chunk = [BitVec.ofNat 8 (64 * s.fmt.tags.index.toNat + slot.toNat)]) ∧
        (Cache.get s.enc.cache slot ≠ p → p.a ≠ s.enc.prev.a → chunk = [s.fmt.fullTags.rgba, p.r, p.g, p.b, p.a]) ∧
        (Cache.get s.enc.cache slot ≠ p → p.a = s.enc.prev.a →
          (-2 ≤ dr ∧ dr ≤ 1 ∧ -2 ≤ dg ∧ dg ≤ 1 ∧ -2 ≤ db ∧ db ≤ 1 →
            chunk = [BitVec.ofInt 8 (64 * s.fmt.tags.diff.toNat + 16 * (dr + 2) + 4 * (dg + 2) + (db + 2))]) ∧
          (¬ (-2 ≤ dr ∧ dr ≤ 1 ∧ -2 ≤ dg ∧ dg ≤ 1 ∧ -2 ≤ db ∧ db ≤ 1) →
            (-32 ≤ dg ∧ dg ≤ 31 ∧ -8 ≤ dr - dg ∧ dr - dg ≤ 7 ∧ -8 ≤ db - dg ∧ db - dg ≤ 7 →
              chunk = [BitVec.ofInt 8 (64 * s.fmt.tags.luma.toNat + (dg + 32)),
                BitVec.ofInt 8 (16 * (dr - dg + 8) + (db - dg + 8))]) ∧
            (¬ (-32 ≤ dg ∧ dg ≤ 31 ∧ -8 ≤ dr - dg ∧ dr - dg ≤ 7 ∧ -8 ≤ db - dg ∧ db - dg ≤ 7) →
              chunk = [s.fmt.fullTags.rgb, p.r, p.g, p.b]))))

/-- R160, R161: an enabled encoder step completes, on the pixel `PIXIN[IDX]` with `last` as the host gives it, and raises
nothing.
Where `last` stands and what ends the loop of `encode` are the model's choice (log 10). -/
def Obligations.EncoderStepCompletes : Prop :=
  ∀ (framed : Bool) (s : State), EncoderEnabled framed s → ∃ t, step s = .next t ∧
    t = { encStep (PixelMemory.read s.pixin s.enc.idx) (decide (s.lastAt = some s.enc.idx)) s with
      activity := t.activity } ∧
    (t.enc.status = .running ∨ t.enc.status = .done) ∧
    (framed = false → t.activity = if t.enc.status = .done then .idle else .encodePixels false) ∧
    (framed = true → t.activity =
      if t.enc.status = .done ∨ s.npix ≤ s.enc.idx + 1 then .appendMarker else .encodePixels true)

/-- R173(c): a step emits at most 6 bytes, and 6 only as a flush before an `RGBA`. -/
def Obligations.StepEmitsAtMostSix : Prop :=
  ∀ (p : Pixel) (last : Bool) (s : State),
    (encStep p last s).enc.outpos ≤ s.enc.outpos + 6 ∧
    ((encStep p last s).enc.outpos = s.enc.outpos + 6 →
      s.enc.run ≠ 0 ∧ p.a ≠ s.enc.prev.a ∧ Cache.get s.enc.cache (HashFn.slot s.fmt.hash p) ≠ p)

/-- R147: after every encoder step the recency property or its one exception holds, and after a non-run step the property
itself. -/
def Obligations.EncoderCacheRecency : Prop :=
  ∀ (p : Pixel) (last : Bool) (s : State), EncoderRecent s →
    EncoderRecent (encStep p last s) ∧
    (p ≠ s.enc.prev → Cache.get (encStep p last s).enc.cache (HashFn.slot s.fmt.hash p) = p)

/-- R95(a), (b): the encoder never selects `Diff{0,0,0}`, nor a `Luma` whose three deltas all fit `Diff`. -/
def Obligations.NeverEmitted : Prop :=
  ∀ (h : HashFn) (c : Cache) (prev p : Pixel), p ≠ prev →
    newPixelChunk h c prev p ≠ .diff 0 0 0 ∧
    (∀ dg drDg dbDg, newPixelChunk h c prev p = .luma dg drDg dbDg →
      ¬ (-2 ≤ dg ∧ dg ≤ 1 ∧ -2 ≤ drDg + dg ∧ drDg + dg ≤ 1 ∧ -2 ≤ dbDg + dg ∧ dbDg + dg ≤ 1))

/-- R177: whatever chunk the encoder selects for a pixel that differs from `PREV`, it is well-formed, and a decoder with the
same `PREV` and a cache that agrees on the pixel's slot executes it to that pixel. -/
def Obligations.SelectedChunkDecodes : Prop :=
  ∀ (s : State) (c : Cache) (p : Pixel) (i : Instr),
    p ≠ s.dec.prev → i = newPixelChunk s.fmt.hash c s.dec.prev p →
    Cache.get s.dec.cache (HashFn.slot s.fmt.hash p) = Cache.get c (HashFn.slot s.fmt.hash p) →
    s.dec.pos + i.length ≤ s.len → s.dec.outcnt < s.expected → PixelMemory.wf s.pixout →
    i.wellFormed = true ∧ i.site = .chunk ∧ ∃ t, exec i s = .next t ∧ ChunkRetired s t i.length 1 p

/-! ## Reset and pass start (10_state.md) -/

/-- R41, R290: at power-on `STATUS` is `Idle` in both instances and no step is enabled.
That `step` answers a fault there is the model's choice (log 12). -/
def Obligations.PowerOnIdle : Prop :=
  State.reset.enc.status = .idle ∧ State.reset.dec.status = .idle ∧ step State.reset = .fault .noStepEnabled

/-- R40, R213: what pass start leaves, in an encoder and in a decoder instance, whatever the state before.
That nothing outside the instance changes, so that `PIXOUT` and `ENCOUT` are not cleared, is the model's choice (log 9); that
the operation in progress is a register is too (log 5). -/
def Obligations.PassStartValues : Prop :=
  (∀ (framed : Bool) (s t : State), t = passStartEnc framed s →
    (∀ k, Cache.get t.enc.cache k = Pixel.zero) ∧ t.enc.prev = s.fmt.initPrev ∧ t.enc.run = 0 ∧ t.enc.idx = 0 ∧
    t.enc.outpos = 0 ∧ t.enc.status = .running ∧ t.enc.errinfo = .none ∧
    t = { s with enc := t.enc, activity := .encodePixels framed }) ∧
  (∀ s t : State, t = passStartDec s →
    (∀ k, Cache.get t.dec.cache k = Pixel.zero) ∧ t.dec.prev = s.fmt.initPrev ∧ t.dec.pos = 0 ∧ t.dec.outcnt = 0 ∧
    t.dec.errinfo = .none ∧
    t.dec.status = (if s.expected = 0 then .done else .running) ∧
    t = { s with dec := t.dec, activity := if s.expected = 0 then .idle else .decodeChunks })

/-! ## Whole-machine rules -/

/-- The invariant (R22, R146, R173, R201, R209, R211, R240, R264 and the canonical form of the buffers) is kept by every
step, from every state that has it.
The canonical form is the model's choice (log 8). -/
def Obligations.StepKeepsInv : Prop :=
  ∀ s t : State, Inv s → step s = .next t → Inv t

/-- The invariant holds at reset.
Reset's register values other than `STATUS` are the model's choice (log 4), its format constants PRESUMED (log 1). -/
def Obligations.ResetInv : Prop := Inv State.reset

/-- The invariant holds after each of the host's calls, from every state that has it.
The calls as functions outside `step` are the model's choice (log 6). -/
def Obligations.HostCallsKeepInv : Prop :=
  ∀ s : State, Inv s →
    (∀ w h c cs ps, Inv (hostEncode w h c cs ps s)) ∧
    (∀ bs, Inv (hostDecode bs s)) ∧
    (∀ bs n, Inv (hostStartDecoder bs n s)) ∧
    (∀ ps l, Inv (hostStartEncoder ps l s))

/-- R29, R33, R60: no step writes the format constants, `PIXIN`, `NPIX` or `last`; a decoder pass never writes `CHUNKS`, `LEN`,
`EXPECTED` or `STREAM`; an encoder pass never writes the header registers. -/
def Obligations.InputsNeverWritten : Prop :=
  ∀ s t : State, step s = .next t →
    t.fmt = s.fmt ∧ t.pixin = s.pixin ∧ t.npix = s.npix ∧ t.lastAt = s.lastAt ∧
    (s.activity = .decodeChunks → t.chunks = s.chunks ∧ t.len = s.len ∧ t.expected = s.expected ∧
      t.stream = s.stream ∧ t.slen = s.slen) ∧
    (s.activity ≠ .parseHeader →
      t.width = s.width ∧ t.height = s.height ∧ t.channels = s.channels ∧ t.colorspace = s.colorspace)

/-- R20, R65: the two instances share no state. A step of one changes no register of the other, and what the other holds
makes no difference to it. -/
def Obligations.InstancesIsolated : Prop :=
  (∀ (s : State) (e : EncoderState), s.activity = .parseHeader ∨ s.activity = .checkMarker ∨ s.activity = .decodeChunks →
    step { s with enc := e } = onNext (fun t => { t with enc := e }) (step s) ∧
    ∀ t, step s = .next t → t.enc = s.enc ∧ t.encout = s.encout) ∧
  (∀ (s : State) (d : DecoderState) (framed : Bool),
    s.activity = .buildHeader ∨ s.activity = .encodePixels framed ∨ s.activity = .appendMarker →
    step { s with dec := d } = onNext (fun t => { t with dec := d }) (step s) ∧
    ∀ t, step s = .next t → t.dec = s.dec ∧ t.pixout = s.pixout)

/-- R129: `CHANNELS` and `COLORSPACE` are carried, not interpreted: no step of a chunk pass reads them. -/
def Obligations.MetadataNotRead : Prop :=
  ∀ (s : State) (c cs : Byte) (framed : Bool), s.activity = .decodeChunks ∨ s.activity = .encodePixels framed →
    step { s with channels := c, colorspace := cs } =
      onNext (fun t => { t with channels := c, colorspace := cs }) (step s)

/-- R264: no step raises `SizeMismatch`. -/
def Obligations.SizeMismatchNeverRaised : Prop :=
  ∀ s t : State, step s = .next t →
    (t.enc.status = .fault .sizeMismatch → s.enc.status = .fault .sizeMismatch) ∧
    (t.dec.status = .fault .sizeMismatch → s.dec.status = .fault .sizeMismatch)

/-- R26, R270: `Done` and `Fault` are final for the pass: a step that changes a decoder's `STATUS` from one of them is a step of
a new `decode` call, and one that changes an encoder's is the first step of a new `encode` call.
R26 lets only a new pass start change them. That a header or end-marker error of a new call, raised before its pass start, also
replaces them is the model's choice (log 14: such an error is held in `STATUS` whatever it was). -/
def Obligations.EndedPassStays : Prop :=
  ∀ s t : State, step s = .next t →
    (s.dec.status = .done ∨ (∃ k, s.dec.status = .fault k) → t.dec.status ≠ s.dec.status →
      s.activity = .parseHeader ∨ s.activity = .checkMarker) ∧
    (s.enc.status = .done ∨ (∃ k, s.enc.status = .fault k) → t.enc.status ≠ s.enc.status →
      s.activity = .buildHeader)

/-- R18 item 5, R26: `step` refuses nothing, and answers a fault exactly when no step is enabled or a bare encoder pass has no
pixel; `exec` always answers a next state.
The two faults are the model's way to say that no step is enabled (log 11, log 12). -/
def Obligations.StepStopsExactly : Prop :=
  (∀ s : State,
    (∀ r, step s ≠ .refused r) ∧
    (step s = .fault .noStepEnabled ↔
      s.activity = .idle ∨ s.activity = .streamReturned ∨ (s.activity = .decodeChunks ∧ s.dec.status ≠ .running) ∨
        ((∃ framed, s.activity = .encodePixels framed) ∧ s.enc.status ≠ .running)) ∧
    (step s = .fault .noPixelPresented ↔
      (∃ framed, s.activity = .encodePixels framed) ∧ s.enc.status = .running ∧ s.npix ≤ s.enc.idx)) ∧
  (∀ (i : Instr) (s : State), ∃ t, exec i s = .next t)

/-- R267: a faulted pass delivers its kind and no data. -/
def Obligations.FaultDeliversNothing : Prop :=
  ∀ (s : State) (k : ErrorKind),
    (s.dec.status = .fault k → decoderOutput s = none ∧ decodeResult s = none ∧ errorOf s.dec.status = some k) ∧
    (s.enc.status = .fault k → encoderOutput s = none ∧ errorOf s.enc.status = some k) ∧
    (∀ info, encodeResult (raise .encoder k info s) = none ∧ decodeResult (raise .decoder k info s) = none)

/-- R295, R174, R290: when an encoder pass of one pixel or more is over. After `k` steps it is `Done`, and has a result, exactly
if the last of them carried `last`; until then it has none, nor has it any after a new `encode` call has abandoned it.
Where `last` stands is the model's choice (log 10). -/
def Obligations.EncoderPassOver : Prop :=
  ∀ (s t : State) (ps : List Pixel) (l : Option Nat) (k : Nat), ps ≠ [] →
    Host.Core.run Sys2Proof.core k (hostStartEncoder ps l s) = .next t →
    k ≤ ps.length ∧ t.enc.idx = k ∧
    ((∃ j, k = j + 1 ∧ l = some j) →
      t.enc.status = .done ∧ encoderOutput t = some (Memory.range t.encout 0 t.enc.outpos)) ∧
    (¬ (∃ j, k = j + 1 ∧ l = some j) →
      t.enc.status = .running ∧ encoderOutput t = none ∧
      ∀ w h c cs qs, encoderOutput (hostEncode w h c cs qs t) = none)

/-! ## Round trips -/

/-- R216: the chunk-level round trip. For every non-empty pixel sequence, an encoder pass over it ends `Done`, and a decoder
pass over its output, with the same format constants, ends `Done` with the same pixels and every byte consumed. -/
def Obligations.ChunkRoundTrip : Prop :=
  ∀ (s d : State) (ps : List Pixel), ps ≠ [] → HashAdmissible s.fmt → d.fmt = s.fmt →
    Memory.wf s.encout → PixelMemory.wf d.pixout →
    ∃ e out, Host.Core.run Sys2Proof.core ps.length (hostStartEncoder ps (lastOf ps.length) s) = .next e ∧
      encoderOutput e = some out ∧
      ∃ k t, Host.Core.run Sys2Proof.core k (hostStartDecoder out ps.length d) = .next t ∧
        decoderOutput t = some ps ∧ t.dec.pos = out.length

/-- R247: `decode(encode(I)) == I` for every valid image. -/
def Obligations.ImageRoundTrip : Prop :=
  ∀ (s d : State) (w h : BitVec 32) (c cs : Byte) (ps : List Pixel),
    1 ≤ w.toNat → 1 ≤ h.toNat → HeaderLegal c cs → ps.length = w.toNat * h.toNat →
    HashAdmissible s.fmt → d.fmt = s.fmt → Memory.wf s.encout → PixelMemory.wf d.pixout →
    ∃ j e out, Host.Core.run Sys2Proof.core j (hostEncode w h c cs ps s) = .next e ∧ encodeResult e = some out ∧
      ∃ k t, Host.Core.run Sys2Proof.core k (hostDecode out d) = .next t ∧ decodeResult t = some (ps, w, h, c, cs)

/-- R217: the two caches. When an encoder pass has consumed `j` pixels and no run is pending, a decoder pass over the bytes
emitted so far ends `Done` with the same `PREV` and the same cache, but for the one slot of a leading run of `INIT_PREV`. -/
def Obligations.CachesRelated : Prop :=
  ∀ (s d e : State) (ps : List Pixel) (j : Nat), HashAdmissible s.fmt → d.fmt = s.fmt → Memory.wf s.encout →
    PixelMemory.wf d.pixout → 1 ≤ j → j ≤ ps.length →
    Host.Core.run Sys2Proof.core j (hostStartEncoder ps (lastOf ps.length) s) = .next e → e.enc.run = 0 →
    ∃ k t, Host.Core.run Sys2Proof.core k
        (hostStartDecoder (Memory.range e.encout 0 e.enc.outpos) j d) = .next t ∧
      t.dec.status = .done ∧ t.dec.prev = e.enc.prev ∧
      ∀ slot, Cache.get t.dec.cache slot = Cache.get e.enc.cache slot ∨
        (slot = HashFn.slot s.fmt.hash s.fmt.initPrev ∧ Cache.get e.enc.cache slot = Pixel.zero ∧
          Cache.get t.dec.cache slot = s.fmt.initPrev)

/-- R241, R267, R214, R246: a `decode` call of any byte string ends, all or nothing: with a whole image of `w * h` pixels whose
header is the one `parseHeader` accepts, or with one of three kinds and no data.
The bound of two steps beside the chunks' (one for the header, one for the end marker), and that `MalformedHeader` and
`MissingEndMarker` are read from the decoder instance's `STATUS`, are the model's choice (log 14). -/
def Obligations.DecodeCallEnds : Prop :=
  ∀ (s : State) (bs : List Byte), ∃ k t, k ≤ bs.length + 2 ∧
    Host.Core.run Sys2Proof.core k (hostDecode bs s) = .next t ∧ t.activity = .idle ∧
    ((∃ ps w h c cs, decodeResult t = some (ps, w, h, c, cs) ∧ parseHeader s.fmt bs = .ok (w, h, c, cs) ∧
        ps.length = w.toNat * h.toNat) ∨
      (decodeResult t = none ∧
        (errorOf t.dec.status = some .malformedHeader ∨ errorOf t.dec.status = some .missingEndMarker ∨
          errorOf t.dec.status = some .truncatedStream)))

/-- R240: an `encode` call with legal header fields returns the header, the encoder pass's bytes and the end marker, `22` bytes
and at most five more a pixel; with illegal ones it raises `MalformedHeader` at its first step and returns nothing.
The count of `NPIX + 2` steps, the raise at the first, and the error in the encoder instance's `STATUS` are the model's choice
(log 14). -/
def Obligations.EncodeCallEnds : Prop :=
  ∀ (s : State) (w h : BitVec 32) (c cs : Byte) (ps : List Pixel), Memory.wf s.encout →
    (HeaderLegal c cs → ∃ t, Host.Core.run Sys2Proof.core (ps.length + 2) (hostEncode w h c cs ps s) = .next t ∧
      t.enc.idx = ps.length ∧ t.slen = 14 + t.enc.outpos + 8 ∧ t.enc.outpos ≤ 5 * ps.length ∧
      (ps ≠ [] → 1 ≤ t.enc.outpos ∧ t.enc.status = .done) ∧
      encodeResult t = some (be32 s.fmt.magic ++ be32 w ++ be32 h ++ [c, cs]
        ++ Memory.range t.encout 0 t.enc.outpos ++ [0, 0, 0, 0, 0, 0, 0, 1])) ∧
    (¬ HeaderLegal c cs → ∃ t, Host.Core.run Sys2Proof.core 1 (hostEncode w h c cs ps s) = .next t ∧
      errorOf t.enc.status = some .malformedHeader ∧ encodeResult t = none)
end

