-- ==== Sys2Proof/Laws/Decode.lean ====
section
/-! SUPPORT. The small laws of the encoding's parts: what the dispatch says of each kind's first byte and of its fields, and
that big-endian packing is undone by unpacking. -/

namespace Sys2Proof

/-! ### First bytes -/

theorem dispatch_rgb (t : TwoBitTags) (full : FullTags) : dispatch t full full.rgb = .rgb := by
  cases t <;> cases full <;> decide

theorem dispatch_rgba (t : TwoBitTags) (full : FullTags) : dispatch t full full.rgba = .rgba := by
  cases t <;> cases full <;> decide

theorem dispatch_index (t : TwoBitTags) (full : FullTags) :
    ∀ slot : BitVec 6, dispatch t full (t.index ++ slot) = .index := by
  cases t <;> cases full <;> decide

theorem dispatch_diff (t : TwoBitTags) (full : FullTags) :
    ∀ r g b : BitVec 2, dispatch t full (t.diff ++ r ++ g ++ b) = .diff := by
  cases t <;> cases full <;> decide

theorem dispatch_luma (t : TwoBitTags) (full : FullTags) :
    ∀ g : BitVec 6, dispatch t full (t.luma ++ g) = .luma := by
  cases t <;> cases full <;> decide

/-- R82, R96: a stored count below 62 never collides with a full-byte tag. -/
theorem dispatch_run (t : TwoBitTags) (full : FullTags) :
    ∀ n : BitVec 6, n.toNat < 62 → dispatch t full (tagRun ++ n) = .run := by
  cases t <;> cases full <;> decide

/-! ### Fields -/

theorem bits_low6 : ∀ (x : BitVec 2) (y : BitVec 6), bits (x ++ y) 0 6 = y := by decide

theorem bits_nibbles : ∀ x y : BitVec 4, bits (x ++ y) 4 4 = x ∧ bits (x ++ y) 0 4 = y := by decide

theorem bits_pairs : ∀ t r g b : BitVec 2, bits (t ++ r ++ g ++ b) 4 2 = r ∧ bits (t ++ r ++ g ++ b) 2 2 = g ∧
    bits (t ++ r ++ g ++ b) 0 2 = b := by decide

/-- The fields of a byte as numbers. -/
theorem bits_toNat : ∀ b : Byte, (bits b 0 6).toNat = b.toNat % 64 ∧ (bits b 4 2).toNat = b.toNat / 16 % 4 ∧
    (bits b 2 2).toNat = b.toNat / 4 % 4 ∧ (bits b 0 2).toNat = b.toNat % 4 ∧ (bits b 4 4).toNat = b.toNat / 16 ∧
    (bits b 0 4).toNat = b.toNat % 16 := by decide

/-- D4: the four two-bit tags are distinct. -/
theorem tags_distinct (t : TwoBitTags) : t.index ≠ t.diff ∧ t.index ≠ t.luma ∧ t.diff ≠ t.luma ∧ t.index ≠ tagRun ∧
    t.diff ≠ tagRun ∧ t.luma ≠ tagRun := by cases t <;> decide

/-- D5: the two full-byte tags are distinct. -/
theorem fullTags_distinct (full : FullTags) : full.rgba ≠ full.rgb := by cases full <;> decide

/-! ### The first byte of a kind -/

theorem byte_of_rgb (t : TwoBitTags) (full : FullTags) :
    ∀ b : Byte, dispatch t full b = .rgb → b = full.rgb := by
  cases t <;> cases full <;> decide

theorem byte_of_rgba (t : TwoBitTags) (full : FullTags) :
    ∀ b : Byte, dispatch t full b = .rgba → b = full.rgba := by
  cases t <;> cases full <;> decide

theorem byte_of_index (t : TwoBitTags) (full : FullTags) :
    ∀ b : Byte, dispatch t full b = .index → b = t.index ++ bits b 0 6 := by
  cases t <;> cases full <;> decide

theorem byte_of_diff (t : TwoBitTags) (full : FullTags) :
    ∀ b : Byte, dispatch t full b = .diff → b = t.diff ++ bits b 4 2 ++ bits b 2 2 ++ bits b 0 2 := by
  cases t <;> cases full <;> decide

theorem byte_of_luma (t : TwoBitTags) (full : FullTags) :
    ∀ b : Byte, dispatch t full b = .luma → b = t.luma ++ bits b 0 6 := by
  cases t <;> cases full <;> decide

theorem byte_of_run (t : TwoBitTags) (full : FullTags) :
    ∀ b : Byte, dispatch t full b = .run → b = tagRun ++ bits b 0 6 ∧ (bits b 0 6).toNat < 62 := by
  cases t <;> cases full <;> decide

/-! ### Big-endian packing (R14) -/

/-- `unbe32(be32(n)) = n`. -/
theorem unbe32_be32 (v : BitVec 32) :
    unbe32 (v.extractLsb' 24 8) (v.extractLsb' 16 8) (v.extractLsb' 8 8) (v.extractLsb' 0 8) = v := by
  unfold unbe32
  refine BitVec.eq_of_getLsbD_eq fun i hi => ?_
  simp only [BitVec.getLsbD_append, BitVec.getLsbD_extractLsb']
  by_cases h1 : i < 8
  · simp [h1]
  · by_cases h2 : i < 16
    · simp [h1, show i - 8 < 8 by omega, show 8 + (i - 8) = i by omega]
    · by_cases h3 : i < 24
      · simp [h1, show ¬ i - 8 < 8 by omega, show i - 8 - 8 < 8 by omega, show 16 + (i - 8 - 8) = i by omega]
      · simp [h1, show ¬ i - 8 < 8 by omega, show ¬ i - 8 - 8 < 8 by omega, show i - 8 - 8 - 8 < 8 by omega,
          show 24 + (i - 8 - 8 - 8) = i by omega]

/-- The four bytes of a packed integer are the bytes it was unpacked from. -/
theorem be32_unbe32 (b0 b1 b2 b3 : Byte) : be32 (unbe32 b0 b1 b2 b3) = [b0, b1, b2, b3] := by
  have take : ∀ (lo : Nat) (b : Byte), (∀ k, k < 8 → (unbe32 b0 b1 b2 b3).getLsbD (lo + k) = b.getLsbD k) →
      (unbe32 b0 b1 b2 b3).extractLsb' lo 8 = b := fun lo b h =>
    BitVec.eq_of_getLsbD_eq fun i hi => by simp [hi, h i hi]
  rw [be32, take 24 b0, take 16 b1, take 8 b2, take 0 b3] <;> intro k hk <;>
    simp only [unbe32, BitVec.getLsbD_append] <;> split_ifs <;> first | omega | (congr 1; omega)

/-! ### Lengths and places -/

/-- R88: the bytes of an encoding. -/
theorem encode_length (f : Format) (i : Instr) : (encode f i).length = i.length := by
  cases i <;> simp [encode, Instr.length, be32, endMarkerBytes]

/-- R51, R81: what decodes at a place belongs to it. -/
theorem decode_site {f : Format} {site : Site} {bs rest : List Byte} {i : Instr}
    (h : decode f site bs = .ok (i, rest)) : i.site = site := by
  cases site with
  | header =>
    simp only [decode, decodeHeader] at h
    split at h
    · split at h <;> cases h
      rfl
    · cases h
  | marker =>
    simp only [decode, decodeMarker] at h
    split at h <;> cases h
    rfl
  | chunk =>
    cases bs with
    | nil => cases h
    | cons b bs =>
      simp only [decode, decodeChunk] at h
      split at h
      · split at h <;> cases h
        rfl
      · split at h <;> cases h
        rfl
      · cases h
        rfl
      · cases h
        rfl
      · split at h <;> cases h
        rfl
      · cases h
        rfl

end Sys2Proof
end

