-- ==== Sys2Proof/Laws/State.lean ====
section
/-! SUPPORT. One lemma per field per update, true by rfl, so that no proof unfolds a record update. -/

namespace Sys2Proof.Machine

/-! ### raise_encoder -/

@[simp] theorem raise_encoder_fmt (k : ErrorKind) (info : ErrInfo) (s : State) :
    (raise .encoder k info s).fmt = s.fmt := rfl
@[simp] theorem raise_encoder_activity (k : ErrorKind) (info : ErrInfo) (s : State) :
    (raise .encoder k info s).activity = .idle := rfl
@[simp] theorem raise_encoder_enc_prev (k : ErrorKind) (info : ErrInfo) (s : State) :
    (raise .encoder k info s).enc.prev = s.enc.prev := rfl
@[simp] theorem raise_encoder_enc_cache (k : ErrorKind) (info : ErrInfo) (s : State) :
    (raise .encoder k info s).enc.cache = s.enc.cache := rfl
@[simp] theorem raise_encoder_enc_run (k : ErrorKind) (info : ErrInfo) (s : State) :
    (raise .encoder k info s).enc.run = s.enc.run := rfl
@[simp] theorem raise_encoder_enc_idx (k : ErrorKind) (info : ErrInfo) (s : State) :
    (raise .encoder k info s).enc.idx = s.enc.idx := rfl
@[simp] theorem raise_encoder_enc_outpos (k : ErrorKind) (info : ErrInfo) (s : State) :
    (raise .encoder k info s).enc.outpos = s.enc.outpos := rfl
@[simp] theorem raise_encoder_enc_status (k : ErrorKind) (info : ErrInfo) (s : State) :
    (raise .encoder k info s).enc.status = .fault k := rfl
@[simp] theorem raise_encoder_enc_errinfo (k : ErrorKind) (info : ErrInfo) (s : State) :
    (raise .encoder k info s).enc.errinfo = info := rfl
@[simp] theorem raise_encoder_dec (k : ErrorKind) (info : ErrInfo) (s : State) :
    (raise .encoder k info s).dec = s.dec := rfl
@[simp] theorem raise_encoder_width (k : ErrorKind) (info : ErrInfo) (s : State) :
    (raise .encoder k info s).width = s.width := rfl
@[simp] theorem raise_encoder_height (k : ErrorKind) (info : ErrInfo) (s : State) :
    (raise .encoder k info s).height = s.height := rfl
@[simp] theorem raise_encoder_channels (k : ErrorKind) (info : ErrInfo) (s : State) :
    (raise .encoder k info s).channels = s.channels := rfl
@[simp] theorem raise_encoder_colorspace (k : ErrorKind) (info : ErrInfo) (s : State) :
    (raise .encoder k info s).colorspace = s.colorspace := rfl
@[simp] theorem raise_encoder_expected (k : ErrorKind) (info : ErrInfo) (s : State) :
    (raise .encoder k info s).expected = s.expected := rfl
@[simp] theorem raise_encoder_len (k : ErrorKind) (info : ErrInfo) (s : State) :
    (raise .encoder k info s).len = s.len := rfl
@[simp] theorem raise_encoder_slen (k : ErrorKind) (info : ErrInfo) (s : State) :
    (raise .encoder k info s).slen = s.slen := rfl
@[simp] theorem raise_encoder_npix (k : ErrorKind) (info : ErrInfo) (s : State) :
    (raise .encoder k info s).npix = s.npix := rfl
@[simp] theorem raise_encoder_lastAt (k : ErrorKind) (info : ErrInfo) (s : State) :
    (raise .encoder k info s).lastAt = s.lastAt := rfl
@[simp] theorem raise_encoder_stream (k : ErrorKind) (info : ErrInfo) (s : State) :
    (raise .encoder k info s).stream = s.stream := rfl
@[simp] theorem raise_encoder_chunks (k : ErrorKind) (info : ErrInfo) (s : State) :
    (raise .encoder k info s).chunks = s.chunks := rfl
@[simp] theorem raise_encoder_encout (k : ErrorKind) (info : ErrInfo) (s : State) :
    (raise .encoder k info s).encout = s.encout := rfl
@[simp] theorem raise_encoder_pixin (k : ErrorKind) (info : ErrInfo) (s : State) :
    (raise .encoder k info s).pixin = s.pixin := rfl
@[simp] theorem raise_encoder_pixout (k : ErrorKind) (info : ErrInfo) (s : State) :
    (raise .encoder k info s).pixout = s.pixout := rfl

/-! ### raise_decoder -/

@[simp] theorem raise_decoder_fmt (k : ErrorKind) (info : ErrInfo) (s : State) :
    (raise .decoder k info s).fmt = s.fmt := rfl
@[simp] theorem raise_decoder_activity (k : ErrorKind) (info : ErrInfo) (s : State) :
    (raise .decoder k info s).activity = .idle := rfl
@[simp] theorem raise_decoder_enc (k : ErrorKind) (info : ErrInfo) (s : State) :
    (raise .decoder k info s).enc = s.enc := rfl
@[simp] theorem raise_decoder_dec_prev (k : ErrorKind) (info : ErrInfo) (s : State) :
    (raise .decoder k info s).dec.prev = s.dec.prev := rfl
@[simp] theorem raise_decoder_dec_cache (k : ErrorKind) (info : ErrInfo) (s : State) :
    (raise .decoder k info s).dec.cache = s.dec.cache := rfl
@[simp] theorem raise_decoder_dec_pos (k : ErrorKind) (info : ErrInfo) (s : State) :
    (raise .decoder k info s).dec.pos = s.dec.pos := rfl
@[simp] theorem raise_decoder_dec_outcnt (k : ErrorKind) (info : ErrInfo) (s : State) :
    (raise .decoder k info s).dec.outcnt = s.dec.outcnt := rfl
@[simp] theorem raise_decoder_dec_status (k : ErrorKind) (info : ErrInfo) (s : State) :
    (raise .decoder k info s).dec.status = .fault k := rfl
@[simp] theorem raise_decoder_dec_errinfo (k : ErrorKind) (info : ErrInfo) (s : State) :
    (raise .decoder k info s).dec.errinfo = info := rfl
@[simp] theorem raise_decoder_width (k : ErrorKind) (info : ErrInfo) (s : State) :
    (raise .decoder k info s).width = s.width := rfl
@[simp] theorem raise_decoder_height (k : ErrorKind) (info : ErrInfo) (s : State) :
    (raise .decoder k info s).height = s.height := rfl
@[simp] theorem raise_decoder_channels (k : ErrorKind) (info : ErrInfo) (s : State) :
    (raise .decoder k info s).channels = s.channels := rfl
@[simp] theorem raise_decoder_colorspace (k : ErrorKind) (info : ErrInfo) (s : State) :
    (raise .decoder k info s).colorspace = s.colorspace := rfl
@[simp] theorem raise_decoder_expected (k : ErrorKind) (info : ErrInfo) (s : State) :
    (raise .decoder k info s).expected = s.expected := rfl
@[simp] theorem raise_decoder_len (k : ErrorKind) (info : ErrInfo) (s : State) :
    (raise .decoder k info s).len = s.len := rfl
@[simp] theorem raise_decoder_slen (k : ErrorKind) (info : ErrInfo) (s : State) :
    (raise .decoder k info s).slen = s.slen := rfl
@[simp] theorem raise_decoder_npix (k : ErrorKind) (info : ErrInfo) (s : State) :
    (raise .decoder k info s).npix = s.npix := rfl
@[simp] theorem raise_decoder_lastAt (k : ErrorKind) (info : ErrInfo) (s : State) :
    (raise .decoder k info s).lastAt = s.lastAt := rfl
@[simp] theorem raise_decoder_stream (k : ErrorKind) (info : ErrInfo) (s : State) :
    (raise .decoder k info s).stream = s.stream := rfl
@[simp] theorem raise_decoder_chunks (k : ErrorKind) (info : ErrInfo) (s : State) :
    (raise .decoder k info s).chunks = s.chunks := rfl
@[simp] theorem raise_decoder_encout (k : ErrorKind) (info : ErrInfo) (s : State) :
    (raise .decoder k info s).encout = s.encout := rfl
@[simp] theorem raise_decoder_pixin (k : ErrorKind) (info : ErrInfo) (s : State) :
    (raise .decoder k info s).pixin = s.pixin := rfl
@[simp] theorem raise_decoder_pixout (k : ErrorKind) (info : ErrInfo) (s : State) :
    (raise .decoder k info s).pixout = s.pixout := rfl

/-! ### passStartEnc -/

@[simp] theorem passStartEnc_fmt (framed : Bool) (s : State) :
    (passStartEnc framed s).fmt = s.fmt := rfl
@[simp] theorem passStartEnc_activity (framed : Bool) (s : State) :
    (passStartEnc framed s).activity = .encodePixels framed := rfl
@[simp] theorem passStartEnc_enc (framed : Bool) (s : State) :
    (passStartEnc framed s).enc = freshEncoder s.fmt := rfl
@[simp] theorem passStartEnc_dec (framed : Bool) (s : State) :
    (passStartEnc framed s).dec = s.dec := rfl
@[simp] theorem passStartEnc_width (framed : Bool) (s : State) :
    (passStartEnc framed s).width = s.width := rfl
@[simp] theorem passStartEnc_height (framed : Bool) (s : State) :
    (passStartEnc framed s).height = s.height := rfl
@[simp] theorem passStartEnc_channels (framed : Bool) (s : State) :
    (passStartEnc framed s).channels = s.channels := rfl
@[simp] theorem passStartEnc_colorspace (framed : Bool) (s : State) :
    (passStartEnc framed s).colorspace = s.colorspace := rfl
@[simp] theorem passStartEnc_expected (framed : Bool) (s : State) :
    (passStartEnc framed s).expected = s.expected := rfl
@[simp] theorem passStartEnc_len (framed : Bool) (s : State) :
    (passStartEnc framed s).len = s.len := rfl
@[simp] theorem passStartEnc_slen (framed : Bool) (s : State) :
    (passStartEnc framed s).slen = s.slen := rfl
@[simp] theorem passStartEnc_npix (framed : Bool) (s : State) :
    (passStartEnc framed s).npix = s.npix := rfl
@[simp] theorem passStartEnc_lastAt (framed : Bool) (s : State) :
    (passStartEnc framed s).lastAt = s.lastAt := rfl
@[simp] theorem passStartEnc_stream (framed : Bool) (s : State) :
    (passStartEnc framed s).stream = s.stream := rfl
@[simp] theorem passStartEnc_chunks (framed : Bool) (s : State) :
    (passStartEnc framed s).chunks = s.chunks := rfl
@[simp] theorem passStartEnc_encout (framed : Bool) (s : State) :
    (passStartEnc framed s).encout = s.encout := rfl
@[simp] theorem passStartEnc_pixin (framed : Bool) (s : State) :
    (passStartEnc framed s).pixin = s.pixin := rfl
@[simp] theorem passStartEnc_pixout (framed : Bool) (s : State) :
    (passStartEnc framed s).pixout = s.pixout := rfl

/-! ### passStartDec -/

@[simp] theorem passStartDec_fmt (s : State) :
    (passStartDec s).fmt = s.fmt := rfl
@[simp] theorem passStartDec_activity (s : State) :
    (passStartDec s).activity = decoderActivity (decoderStatus 0 s.expected) := rfl
@[simp] theorem passStartDec_enc (s : State) :
    (passStartDec s).enc = s.enc := rfl
@[simp] theorem passStartDec_dec (s : State) :
    (passStartDec s).dec = freshDecoder s.fmt s.expected := rfl
@[simp] theorem passStartDec_width (s : State) :
    (passStartDec s).width = s.width := rfl
@[simp] theorem passStartDec_height (s : State) :
    (passStartDec s).height = s.height := rfl
@[simp] theorem passStartDec_channels (s : State) :
    (passStartDec s).channels = s.channels := rfl
@[simp] theorem passStartDec_colorspace (s : State) :
    (passStartDec s).colorspace = s.colorspace := rfl
@[simp] theorem passStartDec_expected (s : State) :
    (passStartDec s).expected = s.expected := rfl
@[simp] theorem passStartDec_len (s : State) :
    (passStartDec s).len = s.len := rfl
@[simp] theorem passStartDec_slen (s : State) :
    (passStartDec s).slen = s.slen := rfl
@[simp] theorem passStartDec_npix (s : State) :
    (passStartDec s).npix = s.npix := rfl
@[simp] theorem passStartDec_lastAt (s : State) :
    (passStartDec s).lastAt = s.lastAt := rfl
@[simp] theorem passStartDec_stream (s : State) :
    (passStartDec s).stream = s.stream := rfl
@[simp] theorem passStartDec_chunks (s : State) :
    (passStartDec s).chunks = s.chunks := rfl
@[simp] theorem passStartDec_encout (s : State) :
    (passStartDec s).encout = s.encout := rfl
@[simp] theorem passStartDec_pixin (s : State) :
    (passStartDec s).pixin = s.pixin := rfl
@[simp] theorem passStartDec_pixout (s : State) :
    (passStartDec s).pixout = s.pixout := rfl

/-! ### retire -/

@[simp] theorem retire_fmt (length n : Nat) (px : Pixel) (s : State) :
    (retire length n px s).fmt = s.fmt := rfl
@[simp] theorem retire_activity (length n : Nat) (px : Pixel) (s : State) :
    (retire length n px s).activity = decoderActivity (decoderStatus (s.dec.outcnt + owed n s) s.expected) := rfl
@[simp] theorem retire_enc (length n : Nat) (px : Pixel) (s : State) :
    (retire length n px s).enc = s.enc := rfl
@[simp] theorem retire_dec_prev (length n : Nat) (px : Pixel) (s : State) :
    (retire length n px s).dec.prev = px := rfl
@[simp] theorem retire_dec_cache (length n : Nat) (px : Pixel) (s : State) :
    (retire length n px s).dec.cache = Cache.put s.fmt.hash s.dec.cache px := rfl
@[simp] theorem retire_dec_pos (length n : Nat) (px : Pixel) (s : State) :
    (retire length n px s).dec.pos = s.dec.pos + length := rfl
@[simp] theorem retire_dec_outcnt (length n : Nat) (px : Pixel) (s : State) :
    (retire length n px s).dec.outcnt = s.dec.outcnt + owed n s := rfl
@[simp] theorem retire_dec_status (length n : Nat) (px : Pixel) (s : State) :
    (retire length n px s).dec.status = decoderStatus (s.dec.outcnt + owed n s) s.expected := rfl
@[simp] theorem retire_dec_errinfo (length n : Nat) (px : Pixel) (s : State) :
    (retire length n px s).dec.errinfo = s.dec.errinfo := rfl
@[simp] theorem retire_width (length n : Nat) (px : Pixel) (s : State) :
    (retire length n px s).width = s.width := rfl
@[simp] theorem retire_height (length n : Nat) (px : Pixel) (s : State) :
    (retire length n px s).height = s.height := rfl
@[simp] theorem retire_channels (length n : Nat) (px : Pixel) (s : State) :
    (retire length n px s).channels = s.channels := rfl
@[simp] theorem retire_colorspace (length n : Nat) (px : Pixel) (s : State) :
    (retire length n px s).colorspace = s.colorspace := rfl
@[simp] theorem retire_expected (length n : Nat) (px : Pixel) (s : State) :
    (retire length n px s).expected = s.expected := rfl
@[simp] theorem retire_len (length n : Nat) (px : Pixel) (s : State) :
    (retire length n px s).len = s.len := rfl
@[simp] theorem retire_slen (length n : Nat) (px : Pixel) (s : State) :
    (retire length n px s).slen = s.slen := rfl
@[simp] theorem retire_npix (length n : Nat) (px : Pixel) (s : State) :
    (retire length n px s).npix = s.npix := rfl
@[simp] theorem retire_lastAt (length n : Nat) (px : Pixel) (s : State) :
    (retire length n px s).lastAt = s.lastAt := rfl
@[simp] theorem retire_stream (length n : Nat) (px : Pixel) (s : State) :
    (retire length n px s).stream = s.stream := rfl
@[simp] theorem retire_chunks (length n : Nat) (px : Pixel) (s : State) :
    (retire length n px s).chunks = s.chunks := rfl
@[simp] theorem retire_encout (length n : Nat) (px : Pixel) (s : State) :
    (retire length n px s).encout = s.encout := rfl
@[simp] theorem retire_pixin (length n : Nat) (px : Pixel) (s : State) :
    (retire length n px s).pixin = s.pixin := rfl
@[simp] theorem retire_pixout (length n : Nat) (px : Pixel) (s : State) :
    (retire length n px s).pixout = PixelMemory.writeAll s.pixout s.dec.outcnt (List.replicate (owed n s) px) := rfl

/-! ### emit -/

@[simp] theorem emit_fmt (bs : List Byte) (s : State) :
    (emit bs s).fmt = s.fmt := rfl
@[simp] theorem emit_activity (bs : List Byte) (s : State) :
    (emit bs s).activity = s.activity := rfl
@[simp] theorem emit_enc_prev (bs : List Byte) (s : State) :
    (emit bs s).enc.prev = s.enc.prev := rfl
@[simp] theorem emit_enc_cache (bs : List Byte) (s : State) :
    (emit bs s).enc.cache = s.enc.cache := rfl
@[simp] theorem emit_enc_run (bs : List Byte) (s : State) :
    (emit bs s).enc.run = s.enc.run := rfl
@[simp] theorem emit_enc_idx (bs : List Byte) (s : State) :
    (emit bs s).enc.idx = s.enc.idx := rfl
@[simp] theorem emit_enc_outpos (bs : List Byte) (s : State) :
    (emit bs s).enc.outpos = s.enc.outpos + bs.length := rfl
@[simp] theorem emit_enc_status (bs : List Byte) (s : State) :
    (emit bs s).enc.status = s.enc.status := rfl
@[simp] theorem emit_enc_errinfo (bs : List Byte) (s : State) :
    (emit bs s).enc.errinfo = s.enc.errinfo := rfl
@[simp] theorem emit_dec (bs : List Byte) (s : State) :
    (emit bs s).dec = s.dec := rfl
@[simp] theorem emit_width (bs : List Byte) (s : State) :
    (emit bs s).width = s.width := rfl
@[simp] theorem emit_height (bs : List Byte) (s : State) :
    (emit bs s).height = s.height := rfl
@[simp] theorem emit_channels (bs : List Byte) (s : State) :
    (emit bs s).channels = s.channels := rfl
@[simp] theorem emit_colorspace (bs : List Byte) (s : State) :
    (emit bs s).colorspace = s.colorspace := rfl
@[simp] theorem emit_expected (bs : List Byte) (s : State) :
    (emit bs s).expected = s.expected := rfl
@[simp] theorem emit_len (bs : List Byte) (s : State) :
    (emit bs s).len = s.len := rfl
@[simp] theorem emit_slen (bs : List Byte) (s : State) :
    (emit bs s).slen = s.slen := rfl
@[simp] theorem emit_npix (bs : List Byte) (s : State) :
    (emit bs s).npix = s.npix := rfl
@[simp] theorem emit_lastAt (bs : List Byte) (s : State) :
    (emit bs s).lastAt = s.lastAt := rfl
@[simp] theorem emit_stream (bs : List Byte) (s : State) :
    (emit bs s).stream = s.stream := rfl
@[simp] theorem emit_chunks (bs : List Byte) (s : State) :
    (emit bs s).chunks = s.chunks := rfl
@[simp] theorem emit_encout (bs : List Byte) (s : State) :
    (emit bs s).encout = Memory.writeAll s.encout s.enc.outpos bs := rfl
@[simp] theorem emit_pixin (bs : List Byte) (s : State) :
    (emit bs s).pixin = s.pixin := rfl
@[simp] theorem emit_pixout (bs : List Byte) (s : State) :
    (emit bs s).pixout = s.pixout := rfl

/-! ### setRun -/

@[simp] theorem setRun_fmt (v : BitVec 6) (s : State) :
    (setRun v s).fmt = s.fmt := rfl
@[simp] theorem setRun_activity (v : BitVec 6) (s : State) :
    (setRun v s).activity = s.activity := rfl
@[simp] theorem setRun_enc_prev (v : BitVec 6) (s : State) :
    (setRun v s).enc.prev = s.enc.prev := rfl
@[simp] theorem setRun_enc_cache (v : BitVec 6) (s : State) :
    (setRun v s).enc.cache = s.enc.cache := rfl
@[simp] theorem setRun_enc_run (v : BitVec 6) (s : State) :
    (setRun v s).enc.run = v := rfl
@[simp] theorem setRun_enc_idx (v : BitVec 6) (s : State) :
    (setRun v s).enc.idx = s.enc.idx := rfl
@[simp] theorem setRun_enc_outpos (v : BitVec 6) (s : State) :
    (setRun v s).enc.outpos = s.enc.outpos := rfl
@[simp] theorem setRun_enc_status (v : BitVec 6) (s : State) :
    (setRun v s).enc.status = s.enc.status := rfl
@[simp] theorem setRun_enc_errinfo (v : BitVec 6) (s : State) :
    (setRun v s).enc.errinfo = s.enc.errinfo := rfl
@[simp] theorem setRun_dec (v : BitVec 6) (s : State) :
    (setRun v s).dec = s.dec := rfl
@[simp] theorem setRun_width (v : BitVec 6) (s : State) :
    (setRun v s).width = s.width := rfl
@[simp] theorem setRun_height (v : BitVec 6) (s : State) :
    (setRun v s).height = s.height := rfl
@[simp] theorem setRun_channels (v : BitVec 6) (s : State) :
    (setRun v s).channels = s.channels := rfl
@[simp] theorem setRun_colorspace (v : BitVec 6) (s : State) :
    (setRun v s).colorspace = s.colorspace := rfl
@[simp] theorem setRun_expected (v : BitVec 6) (s : State) :
    (setRun v s).expected = s.expected := rfl
@[simp] theorem setRun_len (v : BitVec 6) (s : State) :
    (setRun v s).len = s.len := rfl
@[simp] theorem setRun_slen (v : BitVec 6) (s : State) :
    (setRun v s).slen = s.slen := rfl
@[simp] theorem setRun_npix (v : BitVec 6) (s : State) :
    (setRun v s).npix = s.npix := rfl
@[simp] theorem setRun_lastAt (v : BitVec 6) (s : State) :
    (setRun v s).lastAt = s.lastAt := rfl
@[simp] theorem setRun_stream (v : BitVec 6) (s : State) :
    (setRun v s).stream = s.stream := rfl
@[simp] theorem setRun_chunks (v : BitVec 6) (s : State) :
    (setRun v s).chunks = s.chunks := rfl
@[simp] theorem setRun_encout (v : BitVec 6) (s : State) :
    (setRun v s).encout = s.encout := rfl
@[simp] theorem setRun_pixin (v : BitVec 6) (s : State) :
    (setRun v s).pixin = s.pixin := rfl
@[simp] theorem setRun_pixout (v : BitVec 6) (s : State) :
    (setRun v s).pixout = s.pixout := rfl

end Sys2Proof.Machine
end

