-- ==== Sys2Proof/Laws/Store.lean ====
section
/-! SUPPORT. The laws of buffers and of the cache: a read after a write gives what was written, every other cell is as before,
and every operation keeps the canonical form. -/

namespace Sys2Proof.Machine

section
variable {α : Type} {blank : α}

/-! ### One cell -/

theorem Store.read_cons_of_ne [DecidableEq α] (m : Store α) (a b : Nat) (v : α) (h : b ≠ a) :
    Store.read blank (Store.cons blank a v m) b = Store.read blank m b := by
  unfold Store.cons
  split
  · rfl
  · simp [Store.read, Ne.symm h]

/-- A write leaves every other cell alone. -/
theorem Store.read_write_of_ne [DecidableEq α] (m : Store α) (a b : Nat) (v : α) (h : b ≠ a) :
    Store.read blank (Store.write blank m a v) b = Store.read blank m b := by
  induction m with
  | nil => exact Store.read_cons_of_ne [] a b v h
  | cons c m ih =>
    obtain ⟨k, w⟩ := c
    simp only [Store.write]
    split
    · exact Store.read_cons_of_ne _ a b v h
    · split
      · rename_i hak
        rw [Store.read_cons_of_ne m a b v h, Store.read, if_neg (by omega)]
      · simp only [Store.read, ih]

/-- An address below every listed one reads blank. -/
theorem Store.read_of_lt (m : Store α) (a : Nat) (h : ∀ c ∈ m, a < c.1) : Store.read blank m a = blank := by
  induction m with
  | nil => rfl
  | cons c m ih =>
    have hc := h c (by simp)
    rw [Store.read, if_neg (by omega), ih fun d hd => h d (by simp [hd])]

theorem Store.read_cons_self [DecidableEq α] (m : Store α) (a : Nat) (v : α) (h : ∀ c ∈ m, a < c.1) :
    Store.read blank (Store.cons blank a v m) a = v := by
  unfold Store.cons
  split
  · rename_i hv
    rw [Store.read_of_lt m a h, hv]
  · simp [Store.read]

/-- A read after a write to the same cell gives the value written. -/
theorem Store.read_write_self [DecidableEq α] (m : Store α) (a : Nat) (v : α) (hm : Store.wf blank m) :
    Store.read blank (Store.write blank m a v) a = v := by
  obtain ⟨hs, hb⟩ := hm
  induction m with
  | nil => exact Store.read_cons_self [] a v (by simp)
  | cons c m ih =>
    obtain ⟨k, w⟩ := c
    rw [List.pairwise_cons] at hs
    simp only [Store.write]
    split
    · rename_i hak
      refine Store.read_cons_self _ a v fun d hd => ?_
      rcases List.mem_cons.1 hd with rfl | hd
      · exact hak
      · exact lt_trans hak (hs.1 d hd)
    · split
      · rename_i hak
        subst hak
        exact Store.read_cons_self m a v hs.1
      · rename_i hak
        rw [Store.read, if_neg (Ne.symm hak)]
        exact ih hs.2 fun d hd => hb d (by simp [hd])

/-! ### The canonical form -/

theorem Store.wf_nil : Store.wf blank ([] : Store α) := by simp [Store.wf]

theorem Store.wf_tail {c : Nat × α} {m : Store α} (h : Store.wf blank (c :: m)) : Store.wf blank m :=
  ⟨(List.pairwise_cons.1 h.1).2, fun d hd => h.2 d (by simp [hd])⟩

theorem Store.wf_cons [DecidableEq α] {m : Store α} {a : Nat} {v : α} (h : ∀ c ∈ m, a < c.1) (hm : Store.wf blank m) :
    Store.wf blank (Store.cons blank a v m) := by
  unfold Store.cons
  split
  · exact hm
  · rename_i hv
    refine ⟨List.pairwise_cons.2 ⟨h, hm.1⟩, fun d hd => ?_⟩
    rcases List.mem_cons.1 hd with rfl | hd
    · exact hv
    · exact hm.2 d hd

theorem Store.mem_write [DecidableEq α] {m : Store α} {a : Nat} {v : α} {d : Nat × α} (h : d ∈ Store.write blank m a v) :
    d.1 = a ∨ d ∈ m := by
  induction m with
  | nil =>
    simp only [Store.write, Store.cons] at h
    split at h <;> simp_all
  | cons c m ih =>
    obtain ⟨k, w⟩ := c
    simp only [Store.write, Store.cons] at h
    split at h
    · split at h
      · exact .inr h
      · rcases List.mem_cons.1 h with rfl | h
        · exact .inl rfl
        · exact .inr h
    · split at h
      · split at h
        · exact .inr (by simp [h])
        · rcases List.mem_cons.1 h with rfl | h
          · exact .inl rfl
          · exact .inr (by simp [h])
      · rcases List.mem_cons.1 h with rfl | h
        · exact .inr (by simp)
        · exact (ih h).imp id fun h => by simp [h]

/-- A write keeps the canonical form. -/
theorem Store.wf_write [DecidableEq α] {m : Store α} {a : Nat} {v : α} (hm : Store.wf blank m) :
    Store.wf blank (Store.write blank m a v) := by
  induction m with
  | nil => exact Store.wf_cons (by simp) hm
  | cons c m ih =>
    obtain ⟨k, w⟩ := c
    have hs := List.pairwise_cons.1 hm.1
    simp only [Store.write]
    split
    · rename_i hak
      refine Store.wf_cons (fun d hd => ?_) hm
      rcases List.mem_cons.1 hd with rfl | hd
      · exact hak
      · exact lt_trans hak (hs.1 d hd)
    · split
      · rename_i hak
        subst hak
        exact Store.wf_cons hs.1 (Store.wf_tail hm)
      · rename_i hka hak
        have ht := ih (Store.wf_tail hm)
        refine ⟨List.pairwise_cons.2 ⟨fun d hd => ?_, ht.1⟩, fun d hd => ?_⟩
        · rcases Store.mem_write hd with h | h
          · simp only [h]; omega
          · exact hs.1 d h
        · rcases List.mem_cons.1 hd with rfl | hd
          · exact hm.2 _ (by simp)
          · exact ht.2 d hd

/-! ### Strings of cells -/

theorem Store.wf_writeAll [DecidableEq α] {m : Store α} {a : Nat} {vs : List α} (hm : Store.wf blank m) :
    Store.wf blank (Store.writeAll blank m a vs) := by
  induction vs generalizing m a with
  | nil => exact hm
  | cons v vs ih => exact ih (Store.wf_write hm)

/-- A string written at `a` leaves every cell outside `[a, a + length)` alone. -/
theorem Store.read_writeAll_of_outside [DecidableEq α] (m : Store α) (a b : Nat) (vs : List α)
    (h : b < a ∨ a + vs.length ≤ b) :
    Store.read blank (Store.writeAll blank m a vs) b = Store.read blank m b := by
  induction vs generalizing m a with
  | nil => rfl
  | cons v vs ih =>
    simp only [List.length_cons] at h
    rw [Store.writeAll, ih _ (a + 1) (by omega), Store.read_write_of_ne _ _ _ _ (by omega)]

/-- Inside `[a, a + length)` the string reads back. -/
theorem Store.read_writeAll_inside [DecidableEq α] (m : Store α) (a k : Nat) (vs : List α) (hm : Store.wf blank m)
    (h : k < vs.length) : Store.read blank (Store.writeAll blank m a vs) (a + k) = vs[k] := by
  induction vs generalizing m a k with
  | nil => simp at h
  | cons v vs ih =>
    rw [Store.writeAll]
    cases k with
    | zero =>
      rw [Store.read_writeAll_of_outside _ _ _ _ (.inl (by omega))]
      exact Store.read_write_self m a v hm
    | succ k =>
      have := ih (Store.write blank m a v) (a + 1) k (Store.wf_write hm) (by simpa using h)
      rw [show a + (k + 1) = a + 1 + k by omega, this, List.getElem_cons_succ]

theorem Store.length_range (m : Store α) (a n : Nat) : (Store.range blank m a n).length = n := by
  simp [Store.range]

theorem Store.getElem_range (m : Store α) (a n k : Nat) (h : k < (Store.range blank m a n).length) :
    (Store.range blank m a n)[k] = Store.read blank m (a + k) := by
  simp [Store.range]

/-- Reading a range that a string was written to gives the string. -/
theorem Store.range_writeAll_self [DecidableEq α] (m : Store α) (a : Nat) (vs : List α) (hm : Store.wf blank m) :
    Store.range blank (Store.writeAll blank m a vs) a vs.length = vs := by
  refine List.ext_getElem (by simp [Store.range]) fun k h1 h2 => ?_
  rw [Store.getElem_range, Store.read_writeAll_inside m a k vs hm h2]

/-- Two buffers that agree on a range read the same there. -/
theorem Store.range_congr (m m' : Store α) (a n : Nat)
    (h : ∀ k, k < n → Store.read blank m (a + k) = Store.read blank m' (a + k)) :
    Store.range blank m a n = Store.range blank m' a n := by
  refine List.ext_getElem (by simp [Store.range]) fun k h1 h2 => ?_
  rw [Store.getElem_range, Store.getElem_range]
  exact h k (by simpa [Store.range] using h1)

theorem Store.range_append (m : Store α) (a n k : Nat) :
    Store.range blank m a (n + k) = Store.range blank m a n ++ Store.range blank m (a + n) k := by
  simp only [Store.range, List.range_add, List.map_append, List.map_map]
  congr 1
  refine List.map_congr_left fun j _ => ?_
  simp [Function.comp, Nat.add_assoc]

theorem Store.range_succ (m : Store α) (a n : Nat) :
    Store.range blank m a (n + 1) = Store.read blank m a :: Store.range blank m (a + 1) n := by
  rw [Nat.add_comm, Store.range_append]
  simp [Store.range]

/-- Appending a string after a range already written. -/
theorem Store.range_writeAll_append [DecidableEq α] (m : Store α) (a n : Nat) (vs : List α) (hm : Store.wf blank m) :
    Store.range blank (Store.writeAll blank m (a + n) vs) a (n + vs.length)
      = Store.range blank m a n ++ vs := by
  rw [Store.range_append, Store.range_writeAll_self _ _ _ hm]
  congr 1
  exact Store.range_congr _ _ _ _ fun k hk =>
    Store.read_writeAll_of_outside _ _ _ _ (.inl (by omega))

/-! ### A window -/

theorem Store.mem_window {m : Store α} {lo hi : Nat} {d : Nat × α} (h : d ∈ Store.window m lo hi) :
    ∃ k, lo ≤ k ∧ d.1 = k - lo ∧ (k, d.2) ∈ m := by
  induction m with
  | nil => simp [Store.window] at h
  | cons c m ih =>
    obtain ⟨k, v⟩ := c
    simp only [Store.window] at h
    split at h
    · rename_i hk
      rcases List.mem_cons.1 h with rfl | h
      · exact ⟨k, hk.1, rfl, by simp⟩
      · obtain ⟨j, h1, h2, h3⟩ := ih h
        exact ⟨j, h1, h2, by simp [h3]⟩
    · obtain ⟨j, h1, h2, h3⟩ := ih h
      exact ⟨j, h1, h2, by simp [h3]⟩

/-- A window keeps the canonical form. -/
theorem Store.wf_window {m : Store α} {lo hi : Nat} (hm : Store.wf blank m) :
    Store.wf blank (Store.window m lo hi) := by
  induction m with
  | nil => exact hm
  | cons c m ih =>
    obtain ⟨k, v⟩ := c
    have hs := List.pairwise_cons.1 hm.1
    have ht := ih (Store.wf_tail hm)
    simp only [Store.window]
    split
    · rename_i hk
      refine ⟨List.pairwise_cons.2 ⟨fun d hd => ?_, ht.1⟩, fun d hd => ?_⟩
      · obtain ⟨j, h1, h2, h3⟩ := Store.mem_window hd
        have := hs.1 _ h3
        simp only [h2]
        simp only at this
        omega
      · rcases List.mem_cons.1 hd with rfl | hd
        · exact hm.2 (k, v) (by simp)
        · exact ht.2 d hd
    · exact ht

/-- R52: offset `k` of the window is offset `lo + k` of the buffer. -/
theorem Store.read_window (m : Store α) (lo hi k : Nat) (h : lo + k < hi) :
    Store.read blank (Store.window m lo hi) k = Store.read blank m (lo + k) := by
  induction m with
  | nil => rfl
  | cons c m ih =>
    obtain ⟨j, v⟩ := c
    simp only [Store.window, Store.read]
    split
    · rename_i hj
      simp only [Store.read, ih]
      by_cases hjk : j = lo + k
      · rw [if_pos hjk, if_pos (by omega)]
      · rw [if_neg hjk, if_neg (by omega)]
    · rename_i hj
      rw [ih, if_neg (by omega)]

end

/-! ### The byte and pixel spaces, under their own names -/

theorem Memory.wf_nil : Memory.wf [] := Store.wf_nil
theorem Memory.wf_writeAll {m : Memory} (a : Nat) (bs : List Byte) (h : Memory.wf m) :
    Memory.wf (Memory.writeAll m a bs) := Store.wf_writeAll h
theorem Memory.wf_window {m : Memory} (lo hi : Nat) (h : Memory.wf m) : Memory.wf (Memory.window m lo hi) :=
  Store.wf_window h
theorem Memory.read_writeAll_of_outside (m : Memory) (a b : Nat) (bs : List Byte)
    (h : b < a ∨ a + bs.length ≤ b) : Memory.read (Memory.writeAll m a bs) b = Memory.read m b :=
  Store.read_writeAll_of_outside m a b bs h
theorem Memory.range_writeAll_self (m : Memory) (a : Nat) (bs : List Byte) (h : Memory.wf m) :
    Memory.range (Memory.writeAll m a bs) a bs.length = bs := Store.range_writeAll_self m a bs h
theorem Memory.range_writeAll_append (m : Memory) (a n : Nat) (bs : List Byte) (h : Memory.wf m) :
    Memory.range (Memory.writeAll m (a + n) bs) a (n + bs.length) = Memory.range m a n ++ bs :=
  Store.range_writeAll_append m a n bs h
theorem Memory.read_window (m : Memory) (lo hi k : Nat) (h : lo + k < hi) :
    Memory.read (Memory.window m lo hi) k = Memory.read m (lo + k) := Store.read_window m lo hi k h
theorem Memory.length_range (m : Memory) (a n : Nat) : (Memory.range m a n).length = n :=
  Store.length_range m a n
theorem Memory.range_append (m : Memory) (a n k : Nat) :
    Memory.range m a (n + k) = Memory.range m a n ++ Memory.range m (a + n) k := Store.range_append m a n k
theorem Memory.range_succ (m : Memory) (a n : Nat) :
    Memory.range m a (n + 1) = Memory.read m a :: Memory.range m (a + 1) n := Store.range_succ m a n
theorem Memory.range_congr (m m' : Memory) (a n : Nat)
    (h : ∀ k, k < n → Memory.read m (a + k) = Memory.read m' (a + k)) :
    Memory.range m a n = Memory.range m' a n := Store.range_congr m m' a n h

theorem Memory.take_range (m : Memory) (a n k : Nat) :
    (Memory.range m a n).take k = Memory.range m a (min k n) := by
  simp [Memory.range, Store.range, ← List.map_take, List.take_range]

theorem PixelMemory.wf_nil : PixelMemory.wf [] := Store.wf_nil
theorem PixelMemory.wf_writeAll {m : PixelMemory} (a : Nat) (ps : List Pixel) (h : PixelMemory.wf m) :
    PixelMemory.wf (PixelMemory.writeAll m a ps) := Store.wf_writeAll h
theorem PixelMemory.read_writeAll_of_outside (m : PixelMemory) (a b : Nat) (ps : List Pixel)
    (h : b < a ∨ a + ps.length ≤ b) :
    PixelMemory.read (PixelMemory.writeAll m a ps) b = PixelMemory.read m b :=
  Store.read_writeAll_of_outside m a b ps h
theorem PixelMemory.read_writeAll_inside (m : PixelMemory) (a k : Nat) (ps : List Pixel)
    (hm : PixelMemory.wf m) (h : k < ps.length) :
    PixelMemory.read (PixelMemory.writeAll m a ps) (a + k) = ps[k] :=
  Store.read_writeAll_inside m a k ps hm h
theorem PixelMemory.range_writeAll_self (m : PixelMemory) (a : Nat) (ps : List Pixel) (h : PixelMemory.wf m) :
    PixelMemory.range (PixelMemory.writeAll m a ps) a ps.length = ps := Store.range_writeAll_self m a ps h
theorem PixelMemory.range_writeAll_append (m : PixelMemory) (a n : Nat) (ps : List Pixel)
    (h : PixelMemory.wf m) :
    PixelMemory.range (PixelMemory.writeAll m (a + n) ps) a (n + ps.length) = PixelMemory.range m a n ++ ps :=
  Store.range_writeAll_append m a n ps h

/-! ### The cache -/

theorem Cache.get_zero (slot : BitVec 6) : Cache.get Cache.zero slot = Pixel.zero := by
  simp [Cache.get, Cache.zero, Vector.get]

theorem Cache.get_eq (c : Cache) (slot : BitVec 6) :
    Cache.get c slot = getElem c slot.toNat slot.isLt := rfl

@[simp] theorem Cache.get_set_self (c : Cache) (slot : BitVec 6) (p : Pixel) :
    Cache.get (Cache.set c slot p) slot = p := by
  rw [Cache.get_eq, Cache.set]
  exact Vector.getElem_set_self slot.isLt

theorem Cache.get_set_of_ne (c : Cache) (slot k : BitVec 6) (p : Pixel) (h : k ≠ slot) :
    Cache.get (Cache.set c slot p) k = Cache.get c k := by
  have hne : slot.toNat ≠ k.toNat := fun e => h (BitVec.eq_of_toNat_eq e.symm)
  rw [Cache.get_eq, Cache.get_eq, Cache.set]
  exact Vector.getElem_set_ne slot.isLt k.isLt hne

@[simp] theorem Cache.get_put_self (h : HashFn) (c : Cache) (p : Pixel) :
    Cache.get (Cache.put h c p) (HashFn.slot h p) = p := Cache.get_set_self _ _ _

theorem Cache.get_put_of_ne (h : HashFn) (c : Cache) (p : Pixel) (k : BitVec 6) (hk : k ≠ HashFn.slot h p) :
    Cache.get (Cache.put h c p) k = Cache.get c k := Cache.get_set_of_ne _ _ _ _ hk

theorem Cache.hit_iff (h : HashFn) (c : Cache) (p : Pixel) :
    Cache.hit h c p = true ↔ Cache.get c (HashFn.slot h p) = p := by
  simp [Cache.hit]

end Sys2Proof.Machine
end

