-- ==== Sys2Proof/Laws/Ops.lean ====
section
/-! SUPPORT. What each shared operation of the decoding side can do, said once: the whole effect of a retired chunk and of a
raised error, and the inversion of exec and of step. -/

namespace Sys2Proof.Machine

/-! ### Status -/

theorem decoderStatus_eq (outcnt expected : Nat) :
    decoderStatus outcnt expected = if outcnt = expected then .done else .running := rfl

theorem decoderActivity_decoderStatus (outcnt expected : Nat) :
    decoderActivity (decoderStatus outcnt expected) = if outcnt = expected then .idle else .decodeChunks := by
  unfold decoderActivity decoderStatus
  split <;> simp

theorem headerDefect_eq_none_iff (c cs : Byte) : headerDefect c cs = none ↔ HeaderLegal c cs := by
  unfold headerDefect HeaderLegal
  split
  · simp only [reduceCtorEq, false_iff]
    rintro ⟨h | h, -⟩ <;> simp_all
  · split
    · simp only [reduceCtorEq, false_iff]
      rintro ⟨-, h | h⟩ <;> simp_all
    · simp only [true_iff]
      constructor <;> by_contra hc <;> simp_all

/-! ### Raising -/

/-- R15, R269. -/
theorem raise_decoder_effect (k : ErrorKind) (info : ErrInfo) (s : State) :
    DecoderRaised s (raise .decoder k info s) k info :=
  ⟨rfl, rfl, rfl, rfl, rfl, ⟨rfl, rfl⟩, rfl,
    ⟨rfl, rfl, ⟨rfl, rfl, rfl, rfl⟩, ⟨rfl, rfl, rfl, rfl, rfl⟩, ⟨rfl, rfl, rfl⟩, rfl⟩⟩

/-! ### The end of a chunk -/

/-- R208, R209, R211: everything `retire` does. -/
theorem retire_effect (length n : Nat) (px : Pixel) (s : State) (hw : PixelMemory.wf s.pixout) :
    ChunkRetired s (retire length n px s) length n px where
  pos := rfl
  outcnt := rfl
  prev := rfl
  slot := Cache.get_put_self _ _ _
  slots := fun k hk => Cache.get_put_of_ne _ _ _ k hk
  status := rfl
  errinfo := rfl
  activity := decoderActivity_decoderStatus _ _
  stored := fun k h1 h2 => by
    simp only [retire_dec_outcnt] at h2
    obtain ⟨j, rfl⟩ := Nat.exists_eq_add_of_le h1
    have hj : j < (List.replicate (owed n s) px).length := by simp; omega
    rw [retire_pixout, PixelMemory.read_writeAll_inside _ _ _ _ hw hj, List.getElem_replicate]
  kept := fun k h => by
    simp only [retire_dec_outcnt] at h
    rw [retire_pixout, PixelMemory.read_writeAll_of_outside _ _ _ _ (by simpa using h)]
  frame := ⟨rfl, rfl, ⟨rfl, rfl, rfl, rfl⟩, ⟨rfl, rfl, rfl, rfl, rfl⟩, ⟨rfl, rfl, rfl⟩, rfl⟩

/-- R201, R210: a chunk executes whole or raises. -/
theorem runChunk_of_fits {length n : Nat} {px : Pixel} {s : State} (h : s.dec.pos + length ≤ s.len) :
    runChunk length n px s = retire length n px s := if_neg (by omega)

theorem runChunk_of_short {length n : Nat} {px : Pixel} {s : State} (h : s.len < s.dec.pos + length) :
    runChunk length n px s = raiseTruncated s := if_pos h

/-! ### exec -/

/-- The pixel a chunk stands for, and how many of it, in a state. -/
def chunkPixel (s : State) : Instr → Pixel
  | .rgb r g b => rgbPixel s.dec.prev r g b
  | .rgba r g b a => ⟨r, g, b, a⟩
  | .index slot => Cache.get s.dec.cache slot
  | .diff dr dg db => diffPixel s.dec.prev dr dg db
  | .luma dg drDg dbDg => lumaPixel s.dec.prev dg drDg dbDg
  | .run _ => s.dec.prev
  | .hdr _ _ _ _ => Pixel.zero
  | .endMarker => Pixel.zero

/-- How many pixels a chunk stands for. -/
def chunkCount : Instr → Nat
  | .rgb _ _ _ => 1
  | .rgba _ _ _ _ => 1
  | .index _ => 1
  | .diff _ _ _ => 1
  | .luma _ _ _ => 1
  | .run count => count
  | .hdr _ _ _ _ => 0
  | .endMarker => 0

/-- Every chunk's meaning is one call of `runChunk`. -/
theorem exec_chunk (i : Instr) (s : State) (h : i.site = .chunk) :
    exec i s = .next (runChunk i.length (chunkCount i) (chunkPixel s i) s) := by
  cases i <;> first | rfl | cases h

/-- What `exec` can answer: always a next state, one of these. -/
theorem exec_cases (i : Instr) (s : State) :
    (i.site = .chunk ∧ s.len < s.dec.pos + i.length ∧ exec i s = .next (raiseTruncated s)) ∨
    (i.site = .chunk ∧ s.dec.pos + i.length ≤ s.len ∧
      exec i s = .next (retire i.length (chunkCount i) (chunkPixel s i) s)) ∨
    (∃ w h c cs d, i = .hdr w h c cs ∧ headerDefect c cs = some d ∧
      exec i s = .next (raise .decoder .malformedHeader (.header d) s)) ∨
    (∃ w h c cs, i = .hdr w h c cs ∧ HeaderLegal c cs ∧
      exec i s = .next { s with width := w, height := h, channels := c, colorspace := cs, activity := .checkMarker }) ∨
    (i = .endMarker ∧ s.slen < 22 ∧ exec i s = .next (raise .decoder .missingEndMarker (.marker s.slen) s)) ∨
    (i = .endMarker ∧ 22 ≤ s.slen ∧
      exec i s = .next (passStartDec { s with
        chunks := Memory.window s.stream 14 (s.slen - 8)
        len := s.slen - 22
        expected := s.width.toNat * s.height.toNat })) := by
  by_cases hc : i.site = .chunk
  · rw [exec_chunk i s hc]
    rcases Nat.lt_or_ge s.len (s.dec.pos + i.length) with h | h
    · exact .inl ⟨hc, h, by rw [runChunk_of_short h]⟩
    · exact .inr (.inl ⟨hc, h, by rw [runChunk_of_fits h]⟩)
  · right; right
    cases i with
    | hdr w h c cs =>
      cases hd : headerDefect c cs with
      | some d => exact .inl ⟨w, h, c, cs, d, rfl, hd, by simp only [exec, execHdr, hd]⟩
      | none =>
        exact .inr (.inl ⟨w, h, c, cs, rfl, (headerDefect_eq_none_iff c cs).1 hd, by simp only [exec, execHdr, hd]⟩)
    | endMarker =>
      right; right
      rcases Nat.lt_or_ge s.slen 22 with h | h
      · exact .inl ⟨rfl, h, by simp only [exec, execEndMarker, if_pos h]⟩
      · exact .inr ⟨rfl, h, by simp only [exec, execEndMarker, if_neg (Nat.not_lt.2 h)]⟩
    | _ => exact absurd rfl hc

end Sys2Proof.Machine
end

