-- ==== Sys2Proof/Laws/Encoder.lean ====
section
/-! SUPPORT. The encoder step as one equation: the bytes it emits and the registers it leaves. -/

namespace Sys2Proof.Machine

theorem Store.writeAll_append {α : Type} [DecidableEq α] {blank : α} (m : Store α) (a : Nat) (xs ys : List α) :
    Store.writeAll blank m a (xs ++ ys) = Store.writeAll blank (Store.writeAll blank m a xs) (a + xs.length) ys := by
  induction xs generalizing m a with
  | nil => rfl
  | cons x xs ih =>
    simp only [List.cons_append, Store.writeAll, ih, List.length_cons]
    congr 1
    omega

theorem Memory.writeAll_append (m : Memory) (a : Nat) (xs ys : List Byte) :
    Memory.writeAll m a (xs ++ ys) = Memory.writeAll (Memory.writeAll m a xs) (a + xs.length) ys :=
  Store.writeAll_append m a xs ys

/-- `RUN` after a step. -/
def runAfter (p : Pixel) (last : Bool) (s : State) : BitVec 6 :=
  if p = s.enc.prev then (if s.enc.run + 1 = 62 ∨ last then 0 else s.enc.run + 1) else 0

/-- The bytes a step emits: at most a flush, then at most one chunk (R173). -/
def stepBytes (p : Pixel) (last : Bool) (s : State) : List Byte :=
  if p = s.enc.prev then
    (if s.enc.run + 1 = 62 ∨ last then encode s.fmt (.run (s.enc.run + 1).toNat) else [])
  else
    (if s.enc.run = 0 then [] else encode s.fmt (.run s.enc.run.toNat))
      ++ encode s.fmt (newPixelChunk s.fmt.hash s.enc.cache s.enc.prev p)

/-- `CACHE` after a step. -/
def cacheAfter (p : Pixel) (s : State) : Cache :=
  if p = s.enc.prev then s.enc.cache else missWrite s.fmt.hash s.enc.cache p

/-! ### The four shapes of a step -/

theorem extendRun_of_flush {last : Bool} {s : State} (h : s.enc.run + 1 = 62 ∨ last = true) :
    extendRun last s = flushRun (setRun (s.enc.run + 1) s) := if_pos h

theorem extendRun_of_count {last : Bool} {s : State} (h : ¬(s.enc.run + 1 = 62 ∨ last = true)) :
    extendRun last s = setRun (s.enc.run + 1) s := if_neg h

theorem flushPending_of_zero {s : State} (h : s.enc.run = 0) : flushPending s = s := if_pos h

theorem flushPending_of_pending {s : State} (h : s.enc.run ≠ 0) : flushPending s = flushRun s := if_neg h

/-- R161, R175: everything `EncStep` does, as one record. -/
theorem encStep_eq (p : Pixel) (last : Bool) (s : State) :
    encStep p last s =
      { s with
        encout := Memory.writeAll s.encout s.enc.outpos (stepBytes p last s)
        enc :=
          { prev := p
            cache := cacheAfter p s
            run := runAfter p last s
            idx := s.enc.idx + 1
            outpos := s.enc.outpos + (stepBytes p last s).length
            status := if last then .done else s.enc.status
            errinfo := s.enc.errinfo } } := by
  by_cases hp : p = s.enc.prev
  · subst hp
    by_cases hl : s.enc.run + 1 = 62 ∨ last = true
    · simp only [encStep, stepBytes, cacheAfter, runAfter, if_true, if_pos hl, extendRun_of_flush hl]
      rfl
    · simp only [encStep, stepBytes, cacheAfter, runAfter, if_true, if_neg hl, extendRun_of_count hl]
      rfl
  · by_cases hr : s.enc.run = 0
    · simp only [encStep, stepBytes, cacheAfter, runAfter, if_neg hp, if_pos hr, flushPending_of_zero hr,
        List.nil_append]
      simp only [encodeNew, emitChunk, emit, hr]
    · simp only [encStep, stepBytes, cacheAfter, runAfter, if_neg hp, if_neg hr, flushPending_of_pending hr,
        flushRun, encodeNew, emitChunk, emit, setRun, Memory.writeAll_append, List.length_append, Nat.add_assoc]

/-! ### The chunk a step selects -/

theorem diffFits_iff (dr dg db : Int) :
    diffFits dr dg db = true ↔ -2 ≤ dr ∧ dr ≤ 1 ∧ -2 ≤ dg ∧ dg ≤ 1 ∧ -2 ≤ db ∧ db ≤ 1 := by
  simp [diffFits, and_assoc]

theorem lumaFits_iff (dr dg db : Int) :
    lumaFits dr dg db = true ↔ -32 ≤ dg ∧ dg ≤ 31 ∧ -8 ≤ dr - dg ∧ dr - dg ≤ 7 ∧ -8 ≤ db - dg ∧ db - dg ≤ 7 := by
  simp [lumaFits, and_assoc]

/-- R175, rows 2 to 6: which chunk is selected, and what is known where it is. -/
theorem newPixelChunk_cases (h : HashFn) (c : Cache) (prev p : Pixel) :
    (Cache.get c (HashFn.slot h p) = p ∧ newPixelChunk h c prev p = .index (HashFn.slot h p)) ∨
    (Cache.get c (HashFn.slot h p) ≠ p ∧ p.a ≠ prev.a ∧ newPixelChunk h c prev p = .rgba p.r p.g p.b p.a) ∨
    (Cache.get c (HashFn.slot h p) ≠ p ∧ p.a = prev.a ∧
      diffFits (delta p.r prev.r) (delta p.g prev.g) (delta p.b prev.b) = true ∧
      newPixelChunk h c prev p = .diff (delta p.r prev.r) (delta p.g prev.g) (delta p.b prev.b)) ∨
    (Cache.get c (HashFn.slot h p) ≠ p ∧ p.a = prev.a ∧
      diffFits (delta p.r prev.r) (delta p.g prev.g) (delta p.b prev.b) = false ∧
      lumaFits (delta p.r prev.r) (delta p.g prev.g) (delta p.b prev.b) = true ∧
      newPixelChunk h c prev p = .luma (delta p.g prev.g) (delta p.r prev.r - delta p.g prev.g)
        (delta p.b prev.b - delta p.g prev.g)) ∨
    (Cache.get c (HashFn.slot h p) ≠ p ∧ p.a = prev.a ∧
      diffFits (delta p.r prev.r) (delta p.g prev.g) (delta p.b prev.b) = false ∧
      lumaFits (delta p.r prev.r) (delta p.g prev.g) (delta p.b prev.b) = false ∧
      newPixelChunk h c prev p = .rgb p.r p.g p.b) := by
  unfold newPixelChunk deltaChunk
  by_cases h1 : Cache.hit h c p = true
  · exact .inl ⟨(Cache.hit_iff _ _ _).1 h1, if_pos h1⟩
  · have h1' : Cache.get c (HashFn.slot h p) ≠ p := fun e => h1 ((Cache.hit_iff _ _ _).2 e)
    by_cases h2 : p.a = prev.a
    · cases h3 : diffFits (delta p.r prev.r) (delta p.g prev.g) (delta p.b prev.b) with
      | true => exact .inr (.inr (.inl ⟨h1', h2, rfl, by simp [h1, h2, h3]⟩))
      | false =>
        cases h4 : lumaFits (delta p.r prev.r) (delta p.g prev.g) (delta p.b prev.b) with
        | true => exact .inr (.inr (.inr (.inl ⟨h1', h2, rfl, rfl, by simp [h1, h2, h3, h4]⟩)))
        | false => exact .inr (.inr (.inr (.inr ⟨h1', h2, rfl, rfl, by simp [h1, h2, h3, h4]⟩)))
    · exact .inr (.inl ⟨h1', h2, by simp [h1, h2]⟩)

/-! ### The cache -/

theorem slotDiscipline_zero (h : HashFn) : SlotDiscipline h Cache.zero := fun k => .inl (Cache.get_zero k)

theorem slotDiscipline_put {h : HashFn} {c : Cache} {p : Pixel} (hc : SlotDiscipline h c) :
    SlotDiscipline h (Cache.put h c p) := by
  intro k
  by_cases hk : k = HashFn.slot h p
  · subst hk
    rw [Cache.get_put_self]
    exact .inr rfl
  · rw [Cache.get_put_of_ne _ _ _ _ hk]
    exact hc k

/-- After a miss or a hit the pixel's slot holds the pixel. -/
theorem get_missWrite_self (h : HashFn) (c : Cache) (p : Pixel) :
    Cache.get (missWrite h c p) (HashFn.slot h p) = p := by
  unfold missWrite
  split
  · rename_i hh
    exact (Cache.hit_iff _ _ _).1 hh
  · exact Cache.get_put_self _ _ _

theorem get_missWrite_of_ne (h : HashFn) (c : Cache) (p : Pixel) (k : BitVec 6) (hk : k ≠ HashFn.slot h p) :
    Cache.get (missWrite h c p) k = Cache.get c k := by
  unfold missWrite
  split
  · rfl
  · exact Cache.get_put_of_ne _ _ _ _ hk

/-! ### The steps of an encode call -/

/-- The first step of `encode`: a raise, or the header written and the pass started. -/
theorem buildHeaderStep_cases (s : State) :
    (∃ d, headerDefect s.channels s.colorspace = some d ∧
      buildHeaderStep s = raise .encoder .malformedHeader (.header d) s) ∨
    (headerDefect s.channels s.colorspace = none ∧
      buildHeaderStep s = { s with
        stream := Memory.writeAll [] 0 (encode s.fmt (.hdr s.width s.height s.channels s.colorspace))
        slen := 14
        enc := freshEncoder s.fmt
        activity := if s.npix = 0 then .appendMarker else .encodePixels true }) := by
  unfold buildHeaderStep buildHeader
  cases hd : headerDefect s.channels s.colorspace with
  | some d => exact .inl ⟨d, rfl, rfl⟩
  | none => exact .inr ⟨rfl, by simp only [passStartEnc, encode_length, Instr.length]⟩

/-- A pixel's step is `encStep`, then the choice of what follows. -/
theorem encodePixelStep_eq (framed : Bool) (s : State) :
    encodePixelStep framed s = { encStep (PixelMemory.read s.pixin s.enc.idx) (lastInput s) s with
      activity := (encodePixelStep framed s).activity } := rfl

end Sys2Proof.Machine
end

