-- ==== Sys2Proof/Laws/Step.lean ====
section
/-! SUPPORT. What a step can do, said once: its inversion, from which every invariant is derived. -/

namespace Sys2Proof.Machine

theorem outcome_next_inj {s t : State} (h : (Host.Outcome.next s : Host.Outcome State Fault Refusal) = .next t) :
    s = t := by cases h; rfl

/-- Every next state of `step` is one of these. -/
theorem step_cases {s t : State} (h : step s = .next t) :
    (∃ f, (s.activity = .parseHeader ∧ f = fetchHeader s ∨ s.activity = .checkMarker ∧ f = fetchMarker s ∨
        s.activity = .decodeChunks ∧ s.dec.status = .running ∧ f = fetchChunk s) ∧
      ((∃ i, f = .run i ∧ exec i s = .next t) ∨
        ∃ k info, f = .traps k info ∧ t = raise .decoder k info s)) ∨
    (s.activity = .buildHeader ∧ t = buildHeaderStep s) ∨
    (∃ framed, EncoderEnabled framed s ∧ t = encodePixelStep framed s) ∨
    (s.activity = .appendMarker ∧ t = appendMarkerStep s) := by
  have run : ∀ f, runFetched f s = .next t → (∃ i, f = .run i ∧ exec i s = .next t) ∨
      ∃ k info, f = .traps k info ∧ t = raise .decoder k info s := by
    intro f hf
    cases f with
    | run i => exact .inl ⟨i, rfl, hf⟩
    | traps k info => exact .inr ⟨k, info, rfl, (outcome_next_inj hf).symm⟩
  unfold step at h
  cases ha : s.activity with
  | idle => simp [ha] at h
  | streamReturned => simp [ha] at h
  | parseHeader =>
    simp only [ha] at h
    exact .inl ⟨_, .inl ⟨rfl, rfl⟩, run _ h⟩
  | checkMarker =>
    simp only [ha] at h
    exact .inl ⟨_, .inr (.inl ⟨rfl, rfl⟩), run _ h⟩
  | decodeChunks =>
    simp only [ha] at h
    split at h
    · exact .inl ⟨_, .inr (.inr ⟨rfl, ‹_›, rfl⟩), run _ h⟩
    · cases h
  | buildHeader =>
    simp only [ha] at h
    exact .inr (.inl ⟨rfl, (outcome_next_inj h).symm⟩)
  | encodePixels framed =>
    simp only [ha, encoderStep] at h
    split at h
    · cases h
    · rename_i hs
      split at h
      · cases h
      · rename_i hn
        exact .inr (.inr (.inl ⟨framed, ⟨ha, by simpa using hs, by omega⟩, (outcome_next_inj h).symm⟩))
  | appendMarker =>
    simp only [ha] at h
    exact .inr (.inr (.inr ⟨rfl, (outcome_next_inj h).symm⟩))

/-! ### What is fetched -/

theorem fetchChunk_decodes {s : State} {i : Instr} (h : fetchChunk s = .run i) : ∃ rest,
    decode s.fmt .chunk (Memory.range s.chunks s.dec.pos (min 5 (s.len - s.dec.pos))) = .ok (i, rest) := by
  unfold fetchChunk at h
  split at h
  · rename_i hd
    cases h
    exact ⟨_, hd⟩
  · cases h

theorem fetchHeader_decodes {s : State} {i : Instr} (h : fetchHeader s = .run i) : ∃ rest,
    decode s.fmt .header (Memory.range s.stream 0 (min 14 s.slen)) = .ok (i, rest) := by
  unfold fetchHeader at h
  split at h
  · rename_i hd
    cases h
    exact ⟨_, hd⟩
  · cases h
  · cases h

theorem fetchMarker_decodes {s : State} {i : Instr} (h : fetchMarker s = .run i) : ∃ rest,
    decode s.fmt .marker (Memory.range s.stream (s.slen - 8) 8) = .ok (i, rest) := by
  unfold fetchMarker at h
  split at h
  · cases h
  · split at h
    · rename_i hd
      cases h
      exact ⟨_, hd⟩
    · cases h

/-- R268: the only error of a chunk's place. -/
theorem fetchChunk_traps {s : State} {k : ErrorKind} {info : ErrInfo} (h : fetchChunk s = .traps k info) :
    k = .truncatedStream := by
  unfold fetchChunk at h
  split at h <;> cases h
  rfl

/-- R268: the only error of the header's place. -/
theorem fetchHeader_traps {s : State} {k : ErrorKind} {info : ErrInfo} (h : fetchHeader s = .traps k info) :
    k = .malformedHeader := by
  unfold fetchHeader at h
  split at h <;> cases h <;> rfl

/-- R268: the only error of the marker's place. -/
theorem fetchMarker_traps {s : State} {k : ErrorKind} {info : ErrInfo} (h : fetchMarker s = .traps k info) :
    k = .missingEndMarker := by
  unfold fetchMarker at h
  split at h
  · cases h
    rfl
  · split at h <;> cases h
    rfl

/-! ### Runs of steps -/

theorem core_run_succ (k : Nat) (s t : State) (h : step s = .next t) :
    Host.Core.run Sys2Proof.core (k + 1) s = Host.Core.run Sys2Proof.core k t := by
  have h' : Sys2Proof.core.step s = .next t := h
  simp only [Host.Core.run, h']

/-- The first step of a run that answers a next state. -/
theorem core_run_succ_inv {k : Nat} {s t : State} (h : Host.Core.run Sys2Proof.core (k + 1) s = .next t) :
    ∃ u : State, step s = .next u ∧ Host.Core.run Sys2Proof.core k u = .next t := by
  cases hs : step s with
  | next u => exact ⟨u, rfl, core_run_succ k s u hs ▸ h⟩
  | fault r =>
    have h' : Sys2Proof.core.step s = .fault r := hs
    simp only [Host.Core.run, h'] at h
    cases h
  | refused r =>
    have h' : Sys2Proof.core.step s = .refused r := hs
    simp only [Host.Core.run, h'] at h
    cases h

/-- The last step of a run that answers a next state. -/
theorem core_run_succ_last {k : Nat} {s t : State} (h : Host.Core.run Sys2Proof.core (k + 1) s = .next t) :
    ∃ u : State, Host.Core.run Sys2Proof.core k s = .next u ∧ step u = .next t := by
  induction k generalizing s with
  | zero =>
    obtain ⟨u, hs, hu⟩ := core_run_succ_inv h
    exact ⟨s, rfl, hs.trans hu⟩
  | succ k ih =>
    obtain ⟨v, hs, hv⟩ := core_run_succ_inv h
    obtain ⟨u, hu, ht⟩ := ih hv
    exact ⟨u, (core_run_succ k s v hs).trans hu, ht⟩

theorem core_run_add (j k : Nat) (s t : State) (h : Host.Core.run Sys2Proof.core j s = .next t) :
    Host.Core.run Sys2Proof.core (j + k) s = Host.Core.run Sys2Proof.core k t := by
  induction j generalizing s with
  | zero =>
    have : s = t := outcome_next_inj h
    subst this
    rw [Nat.zero_add]
  | succ j ih =>
    obtain ⟨u, hs, hu⟩ := core_run_succ_inv h
    rw [show j + 1 + k = (j + k) + 1 by omega, core_run_succ _ s u hs]
    exact ih u hu

/-! ### Every effect of a step -/

/-- R18, R240, R241: every next state of `step`, as the operation that made it. -/
theorem step_effects {s t : State} (h : step s = .next t) :
    ((s.activity = .parseHeader ∨ s.activity = .checkMarker ∨ s.activity = .decodeChunks ∧ s.dec.status = .running) ∧
      ∃ k info, k ≠ .sizeMismatch ∧ t = raise .decoder k info s) ∨
    (s.activity = .parseHeader ∧ ∃ w ht c cs, HeaderLegal c cs ∧
      t = { s with width := w, height := ht, channels := c, colorspace := cs, activity := .checkMarker }) ∨
    (s.activity = .checkMarker ∧ 22 ≤ s.slen ∧ t = passStartDec { s with
      chunks := Memory.window s.stream 14 (s.slen - 8)
      len := s.slen - 22
      expected := s.width.toNat * s.height.toNat }) ∨
    (s.activity = .decodeChunks ∧ s.dec.status = .running ∧ ∃ i : Instr, i.site = .chunk ∧
      s.dec.pos + i.length ≤ s.len ∧ t = retire i.length (chunkCount i) (chunkPixel s i) s) ∨
    (s.activity = .buildHeader ∧ t = buildHeaderStep s) ∨
    (∃ framed, EncoderEnabled framed s ∧ t = encodePixelStep framed s) ∨
    (s.activity = .appendMarker ∧ t = appendMarkerStep s) := by
  rcases step_cases h with ⟨f, ⟨ha, rfl⟩ | ⟨ha, rfl⟩ | ⟨ha, hr, rfl⟩, ht⟩ | hb | he | hm
  · rcases ht with ⟨i, hi, hx⟩ | ⟨k, info, hk, rfl⟩
    · obtain ⟨r, hd⟩ := fetchHeader_decodes hi
      have hs := decode_site hd
      rcases exec_cases i s with hc | hc | ⟨w, hh, c, cs, d, rfl, -, h2⟩ | ⟨w, hh, c, cs, rfl, hl, h2⟩ | hc | hc
      · rw [hc.1] at hs; cases hs
      · rw [hc.1] at hs; cases hs
      · rw [h2] at hx; exact .inl ⟨.inl ha, _, _, by simp, (outcome_next_inj hx).symm⟩
      · rw [h2] at hx; exact .inr (.inl ⟨ha, w, hh, c, cs, hl, (outcome_next_inj hx).symm⟩)
      · rw [hc.1] at hs; cases hs
      · rw [hc.1] at hs; cases hs
    · exact .inl ⟨.inl ha, k, info, by rw [fetchHeader_traps hk]; simp, rfl⟩
  · rcases ht with ⟨i, hi, hx⟩ | ⟨k, info, hk, rfl⟩
    · obtain ⟨r, hd⟩ := fetchMarker_decodes hi
      have hs := decode_site hd
      rcases exec_cases i s with hc | hc | ⟨w, hh, c, cs, d, rfl, -, h2⟩ | ⟨w, hh, c, cs, rfl, hl, h2⟩ | hc | hc
      · rw [hc.1] at hs; cases hs
      · rw [hc.1] at hs; cases hs
      · cases hs
      · cases hs
      · rw [hc.2.2] at hx; exact .inl ⟨.inr (.inl ha), _, _, by simp, (outcome_next_inj hx).symm⟩
      · have h22 := hc.2.1
        rw [hc.2.2] at hx; exact .inr (.inr (.inl ⟨ha, h22, (outcome_next_inj hx).symm⟩))
    · exact .inl ⟨.inr (.inl ha), k, info, by rw [fetchMarker_traps hk]; simp, rfl⟩
  · rcases ht with ⟨i, hi, hx⟩ | ⟨k, info, hk, rfl⟩
    · obtain ⟨r, hd⟩ := fetchChunk_decodes hi
      have hs := decode_site hd
      rcases exec_cases i s with hc | hc | ⟨w, hh, c, cs, d, rfl, -, h2⟩ | ⟨w, hh, c, cs, rfl, hl, h2⟩ | hc | hc
      · rw [hc.2.2] at hx; exact .inl ⟨.inr (.inr ⟨ha, hr⟩), _, _, by simp, (outcome_next_inj hx).symm⟩
      · have hp := hc.2.1
        rw [hc.2.2] at hx
        exact .inr (.inr (.inr (.inl ⟨ha, hr, i, hs, hp, (outcome_next_inj hx).symm⟩)))
      · cases hs
      · cases hs
      · rw [hc.1] at hs; cases hs
      · rw [hc.1] at hs; cases hs
    · exact .inl ⟨.inr (.inr ⟨ha, hr⟩), k, info, by rw [fetchChunk_traps hk]; simp, rfl⟩
  · exact .inr (.inr (.inr (.inr (.inl hb))))
  · exact .inr (.inr (.inr (.inr (.inr (.inl he)))))
  · exact .inr (.inr (.inr (.inr (.inr (.inr hm)))))

end Sys2Proof.Machine
end

