-- ==== Sys2Proof/Laws/HostCall.lean ====
section
/-! SUPPORT. What the host reads of an encoder pass: when there is a result, and that the host's next call leaves none of a pass
that is not over. -/

namespace Sys2Proof.Machine

theorem emptyEncoderPass_iff (s : State) : emptyEncoderPass s = true ↔
    s.enc.status = .running ∧ s.npix = 0 ∧ encoderPassStarted s.activity = true := by
  simp [emptyEncoderPass, and_assoc]

/-- R174, R295: a result is what has been emitted, of a pass that is `Done` or empty. -/
theorem encoderOutput_eq_some_iff (s : State) (out : List Byte) : encoderOutput s = some out ↔
    (s.enc.status = .done ∨ emptyEncoderPass s = true) ∧ out = Memory.range s.encout 0 s.enc.outpos := by
  unfold encoderOutput
  split
  · exact ⟨fun h => ⟨‹_›, (Option.some.inj h).symm⟩, fun h => congrArg some h.2.symm⟩
  · exact ⟨(nomatch ·), fun h => absurd h.1 ‹_›⟩

/-- R174: the result of a pass that was given no pixel, read without any step. -/
theorem encoderOutput_hostStartEncoder_nil (l : Option Nat) (s : State) :
    encoderOutput (hostStartEncoder [] l s) = some [] := rfl

/-- R295: while a pass is `Running` over one pixel or more there is no result. -/
theorem encoderOutput_of_running {s : State} (hs : s.enc.status = .running) (hn : s.npix ≠ 0) : encoderOutput s = none := by
  simp [encoderOutput, emptyEncoderPass, hs, hn]

/-- R290: no call leaves a result of a `Running` pass: `encode`, with no pixel too, before its own pass starts. -/
theorem encoderOutput_hostEncode_of_running (w h : BitVec 32) (c cs : Byte) (ps : List Pixel) {s : State}
    (hs : s.enc.status = .running) : encoderOutput (hostEncode w h c cs ps s) = none := by
  simp [encoderOutput, emptyEncoderPass, hostEncode, encoderPassStarted, hs]

/-- R290: nor does a `decode` call. -/
theorem encoderOutput_hostDecode_of_running (bs : List Byte) {s : State} (hs : s.enc.status = .running) :
    encoderOutput (hostDecode bs s) = none := by
  simp [encoderOutput, emptyEncoderPass, hostDecode, encoderPassStarted, hs]

end Sys2Proof.Machine
end

