-- ==== Sys2Proof/Laws/PerInstr.lean ====
section
/-! SUPPORT. The family EncodedLength, one lemma per constructor: an instruction's bytes are as many as the opcode table gives
its row (R88 to R90), under every admissible choice of the format constants. -/

namespace Sys2Proof.Laws.EncodedLength

/-- The encoding of the instruction has the row's length. -/
def Statement (i : Instr) : Prop := ∀ f : Format, (encode f i).length = i.length

theorem rgb (r g b : Byte) : Statement (.rgb r g b) := fun _ => rfl
theorem rgba (r g b a : Byte) : Statement (.rgba r g b a) := fun _ => rfl
theorem index (slot : BitVec 6) : Statement (.index slot) := fun _ => rfl
theorem diff (dr dg db : Int) : Statement (.diff dr dg db) := fun _ => rfl
theorem luma (dg drDg dbDg : Int) : Statement (.luma dg drDg dbDg) := fun _ => rfl
theorem run (count : Nat) : Statement (.run count) := fun _ => rfl
theorem hdr (width height : BitVec 32) (channels colorspace : Byte) :
    Statement (.hdr width height channels colorspace) := fun _ => rfl
theorem endMarker : Statement .endMarker := fun _ => rfl

end Sys2Proof.Laws.EncodedLength
end

