-- ==== Sys2Proof/Tests/Slice0.lean ====
section
/-! SUPPORT. Tests: ill-formed terms the check refuses; words written out from the encodings (30_encoding.md and the C, H vectors of
95_test_vectors.md), decoded and encoded; one-step tests whose expected results are the spec's own vectors (named in each test);
and a witness for the hypotheses of every obligation that has some. -/

namespace Sys2Proof.Tests

open Sys2Proof Sys2Proof.Machine

/-- What a test asks of the next state; false of any other outcome. -/
def after (o : Host.Outcome State Fault Refusal) (q : State → Bool) : Bool :=
  match o with
  | .next t => q t
  | .fault _ => false
  | .refused _ => false

/-- A decoder pass just started over `bs` with `n` pixels expected, from the state at reset. -/
def dec (bs : List Byte) (n : Nat) : State := hostStartDecoder bs n State.reset

/-- That pass with `PREV` at `p`. -/
def decFrom (p : Pixel) (bs : List Byte) (n : Nat) : State :=
  { dec bs n with dec := { (dec bs n).dec with prev := p } }

/-- An encoder pass over `ps` that has `PREV`, `RUN` and a cache holding `c`, at the last pixel of `ps` (which carries `last`
when asked). -/
def enc (prev : Pixel) (run : BitVec 6) (c : List Pixel) (p : Pixel) (last : Bool) : State :=
  { hostStartEncoder [p] (if last then some 0 else none) State.reset with
    enc :=
      { freshEncoder defaultFormat with
        prev := prev, run := run, cache := c.foldl (Cache.put defaultFormat.hash) Cache.zero } }

/-- H1's fourteen bytes. -/
def hdrBytes : List Byte :=
  [0x71, 0x6F, 0x69, 0x66, 0x00, 0x00, 0x00, 0x02, 0x00, 0x00, 0x00, 0x01, 0x04, 0x00]

/-- The end marker's eight bytes. -/
def endBytes : List Byte := [0x00, 0x00, 0x00, 0x00, 0x00, 0x00, 0x00, 0x01]

/-- A `decode` call that has parsed H1 and looks for the end marker of `bs`. -/
def marker (bs : List Byte) : State :=
  { hostDecode bs State.reset with width := 2, height := 1, channels := 4, colorspace := 0, activity := .checkMarker }

/-! ### Well-formedness -/

theorem test_wf_diff : (Instr.diff (-2) 1 0).wellFormed = true ∧ (Instr.diff (-3) 0 0).wellFormed = false ∧
    (Instr.diff 2 0 0).wellFormed = false ∧ (Instr.diff 0 (-3) 0).wellFormed = false ∧
    (Instr.diff 0 2 0).wellFormed = false ∧ (Instr.diff 0 0 (-3)).wellFormed = false ∧
    (Instr.diff 0 0 2).wellFormed = false := by decide

theorem test_wf_luma : (Instr.luma (-32) 7 (-8)).wellFormed = true ∧ (Instr.luma (-33) 0 0).wellFormed = false ∧
    (Instr.luma 32 0 0).wellFormed = false ∧ (Instr.luma 0 (-9) 0).wellFormed = false ∧
    (Instr.luma 0 8 0).wellFormed = false ∧ (Instr.luma 0 0 (-9)).wellFormed = false ∧
    (Instr.luma 0 0 8).wellFormed = false := by decide

theorem test_wf_run : (Instr.run 1).wellFormed = true ∧ (Instr.run 62).wellFormed = true ∧
    (Instr.run 0).wellFormed = false ∧ (Instr.run 63).wellFormed = false := by decide

/-! ### Words of every constructor, both directions (vectors C1 to C6, H1, H2, R90) -/

theorem test_word_run : decodeChunk defaultFormat [0b11000001] = .ok (.run 2, []) ∧
    decodeChunk defaultFormat [0b11111101] = .ok (.run 62, []) ∧ encode defaultFormat (.run 8) = [0xC7] ∧
    encode defaultFormat (.run 62) = [0xFD] := by decide

theorem test_word_index : decodeChunk defaultFormat [0b00001001] = .ok (.index 9, []) ∧
    decodeChunk defaultFormat [0b00111111] = .ok (.index 63, []) ∧ encode defaultFormat (.index 53) = [0x35] := by decide

theorem test_word_diff : decodeChunk defaultFormat [0b01001110] = .ok (.diff (-2) 1 0, []) ∧
    decodeChunk defaultFormat [0b01110101] = .ok (.diff 1 (-1) (-1), []) ∧
    encode defaultFormat (.diff (-2) (-2) (-2)) = [0x40] ∧ encode defaultFormat (.diff 1 0 0) = [0x7A] := by decide

theorem test_word_luma : decodeChunk defaultFormat [0b10000000, 0b00001111] = .ok (.luma (-32) (-8) 7, []) ∧
    decodeChunk defaultFormat [0b10111111, 0b11110000] = .ok (.luma 31 7 (-8), []) ∧
    encode defaultFormat (.luma 0 (-3) 0) = [0xA0, 0x58] ∧ encode defaultFormat (.luma 0 2 0) = [0xA0, 0xA8] := by decide

theorem test_word_rgb : decodeChunk defaultFormat [0b11111110, 0x0A, 0x14, 0x1E] = .ok (.rgb 10 20 30, []) ∧
    encode defaultFormat (.rgb 254 255 0) = [0xFE, 0xFE, 0xFF, 0x00] := by decide

theorem test_word_rgba : decodeChunk defaultFormat [0b11111111, 0x05, 0x05, 0x05, 0x80] = .ok (.rgba 5 5 5 128, []) ∧
    encode defaultFormat (.rgba 255 254 255 254) = [0xFF, 0xFF, 0xFE, 0xFF, 0xFE] := by decide

theorem test_word_hdr : decodeHeader defaultFormat hdrBytes = .ok (.hdr 2 1 4 0, []) ∧
    encode defaultFormat (.hdr 800 600 3 1) =
      [0x71, 0x6F, 0x69, 0x66, 0x00, 0x00, 0x03, 0x20, 0x00, 0x00, 0x02, 0x58, 0x03, 0x01] := by decide

theorem test_word_end : decodeMarker endBytes = .ok (.endMarker, []) ∧
    decodeMarker [0, 0, 0, 0, 0, 0, 1, 0] = .error .missingMarker ∧ encode defaultFormat .endMarker = endBytes := by decide

/-- Under the other tag choices the same bytes read differently (D4, D5). -/
theorem test_word_other_tags :
    decodeChunk { defaultFormat with tags := .lumaDiffIndex } [0b10001001] = .ok (.index 9, []) ∧
    decodeChunk { defaultFormat with fullTags := .rgbaRgb } [0xFF, 1, 2, 3] = .ok (.rgb 1 2 3, []) := by decide

/-- The rows of the opcode table (log 15). -/
theorem test_table_rows :
    decodeTableWord 8 0xC1 = some (.run 2) ∧ decodeTableWord 8 0x09 = some (.index 9) ∧
    decodeTableWord 8 0x75 = some (.diff 1 (-1) (-1)) ∧ decodeTableWord 16 0x58A0 = some (.luma 0 (-3) 0) ∧
    decodeTableWord 32 0x1E140AFE = some (.rgb 10 20 30) ∧ decodeTableWord 40 0x80050505FF = some (.rgba 5 5 5 128) ∧
    decodeTableWord 32 0x716F6966 = some (.hdr 0 0 0 0) ∧ decodeTableWord 64 1 = some .endMarker := by decide

/-! ### Arithmetic and hash (vectors A1 to A7, K1 to K10) -/

theorem test_A1_A2 : wrap8 256 = 0 ∧ wrap8 (-1) = 255 ∧ wrap8 511 = 255 ∧ wrap8 (-256) = 0 ∧
    s8 0 = 0 ∧ s8 127 = 127 ∧ s8 128 = -128 ∧ s8 255 = -1 := by decide

theorem test_A3_A5 : add8 255 1 = 0 ∧ add8 0 (-1) = 255 ∧ add8 250 6 = 0 ∧ add8 128 (-128) = 0 ∧
    delta 127 255 = -128 ∧ delta 2 252 = 6 ∧ delta 252 2 = -6 ∧ delta 7 7 = 0 := by decide

theorem test_A6_A7 : be32 800 = [0x00, 0x00, 0x03, 0x20] ∧ be32 0x01020304 = [0x01, 0x02, 0x03, 0x04] ∧
    unbe32 0x00 0x00 0x02 0x58 = 600 ∧ (unbe32 0x80 0x00 0x00 0x00).toNat = 2147483648 := by decide

theorem test_K1_K10 : publicHash ⟨0, 0, 0, 0⟩ = 0 ∧ publicHash ⟨0, 0, 0, 255⟩ = 53 ∧ publicHash ⟨255, 255, 255, 255⟩ = 38 ∧
    publicHash ⟨10, 20, 30, 255⟩ = 9 ∧ publicHash ⟨1, 2, 3, 4⟩ = 14 ∧ publicHash ⟨5, 5, 5, 255⟩ = 0 ∧
    publicHash ⟨5, 5, 5, 128⟩ = 11 ∧ publicHash ⟨255, 0, 0, 0⟩ = 61 ∧ publicHash ⟨0, 255, 0, 0⟩ = 59 ∧
    publicHash ⟨0, 0, 255, 0⟩ = 57 ∧ publicHash ⟨0, 0, 0, 1⟩ = 11 := by decide

/-- K14 to K16: the hit test compares the whole pixel. -/
theorem test_K14_K16 :
    Cache.hit .publicFormat (Cache.put .publicFormat Cache.zero ⟨5, 5, 5, 255⟩) ⟨0, 0, 0, 0⟩ = false ∧
    Cache.hit .publicFormat Cache.zero ⟨0, 0, 0, 0⟩ = true ∧
    Cache.hit .publicFormat Cache.zero ⟨64, 0, 0, 0⟩ = false := by decide

/-! ### Header checks (vectors H4 to H10, H12) -/

theorem test_H4_H9 :
    parseHeader defaultFormat (hdrBytes.take 13) = .error .shortHeader ∧
    parseHeader defaultFormat [0x71, 0x6F, 0x69, 0x66, 0, 0, 0, 2, 0, 0, 0, 1, 0x05, 0] = .error .badChannels ∧
    parseHeader defaultFormat [0x71, 0x6F, 0x69, 0x66, 0, 0, 0, 2, 0, 0, 0, 1, 0x04, 2] = .error .badColorSpace ∧
    parseHeader defaultFormat [0, 0, 0, 0, 0, 0, 0, 2, 0, 0, 0, 1, 7, 9] = .error .badMagic := by decide

theorem test_H10_H12 :
    parseHeader defaultFormat [0x71, 0x6F, 0x69, 0x66, 0, 0, 0, 0, 0, 0, 0, 5, 3, 1] = .ok (0, 5, 3, 1) ∧
    buildHeader defaultFormat 2 1 5 2 = .error .badChannels ∧
    buildHeader defaultFormat 2 1 4 2 = .error .badColorSpace := by decide

/-! ### One decoder step -/

/-- D4, first chunk; R202: alpha from `PREV`. -/
theorem test_step_rgb : after (step (decFrom ⟨1, 2, 3, 4⟩ [0xFE, 0x09, 0x08, 0x07] 2)) (fun t =>
    PixelMemory.read t.pixout 0 = ⟨9, 8, 7, 4⟩ && t.dec.pos = 4 && t.dec.status = .running) = true := by decide

/-- T2: `RGB` on three bytes. -/
theorem test_step_rgb_short : after (step (dec [0xFE, 0x01, 0x02] 1)) (fun t =>
    t.dec.status = .fault .truncatedStream && t.dec.errinfo = .truncated 0 0 && t.dec.prev = ⟨0, 0, 0, 255⟩) = true := by
  decide

/-- D12, first chunk: `RGBA` and its slot 14. -/
theorem test_step_rgba : after (step (dec [0xFF, 0x01, 0x02, 0x03, 0x04] 5)) (fun t =>
    PixelMemory.read t.pixout 0 = ⟨1, 2, 3, 4⟩ && Cache.get t.dec.cache 14 = ⟨1, 2, 3, 4⟩ && t.dec.pos = 5) = true := by
  decide

/-- T3: `RGBA` on four bytes. -/
theorem test_step_rgba_short : after (step (dec [0xFF, 0x01, 0x02, 0x03] 1)) (fun t =>
    t.dec.status = .fault .truncatedStream && t.activity = .idle) = true := by decide

/-- D2: an unwritten slot. -/
theorem test_step_index_empty : after (step (dec [0x05] 1)) (fun t =>
    t.dec.prev = Pixel.zero && t.dec.status = .done && t.dec.pos = 1) = true := by decide

/-- R204's example: `CACHE[9]` holds the pixel. -/
theorem test_step_index_hit :
    after (exec (.index 9) { dec [0x09] 2 with
      dec := { (dec [0x09] 2).dec with cache := Cache.put .publicFormat Cache.zero ⟨10, 20, 30, 255⟩ } })
      (fun t => PixelMemory.read t.pixout 0 = ⟨10, 20, 30, 255⟩) = true := by decide

/-- D3: `Diff{-2,-2,-2}` wraps below 0. -/
theorem test_step_diff_low : after (step (dec [0x40] 1)) (fun t =>
    t.dec.prev = ⟨254, 254, 254, 255⟩ && Cache.get t.dec.cache 23 = ⟨254, 254, 254, 255⟩) = true := by decide

/-- R205: `Diff{1,1,1}` wraps above 255. -/
theorem test_step_diff_high : after (step (decFrom ⟨255, 255, 255, 255⟩ [0x7F] 1)) (fun t =>
    t.dec.prev = ⟨0, 0, 0, 255⟩) = true := by decide

/-- D5: `Luma{-32,-8,-8}`. -/
theorem test_step_luma_low : after (step (dec [0x80, 0x00] 1)) (fun t =>
    t.dec.prev = ⟨216, 224, 216, 255⟩ && t.dec.pos = 2) = true := by decide

/-- R206's third example: the high nibble is red's. -/
theorem test_step_luma_red : after (step (decFrom ⟨10, 10, 10, 255⟩ [0xA0, 0x58] 1)) (fun t =>
    t.dec.prev = ⟨7, 10, 10, 255⟩) = true := by decide

/-- D7: `Run{5}` cut to the three pixels owed. -/
theorem test_step_run_cut : after (step (dec [0xC4] 3)) (fun t =>
    t.dec.outcnt = 3 && t.dec.status = .done && PixelMemory.read t.pixout 2 = ⟨0, 0, 0, 255⟩) = true := by decide

/-- D1: the decoder writes the cache after a `Run`. -/
theorem test_step_run_cache : after (step (dec [0xC1] 2)) (fun t =>
    Cache.get t.dec.cache 53 = ⟨0, 0, 0, 255⟩ && t.dec.pos = 1) = true := by decide

/-- F12: a short header. -/
theorem test_step_hdr_short : after (step (hostDecode (hdrBytes.take 13) State.reset)) (fun t =>
    t.dec.status = .fault .malformedHeader && t.dec.errinfo = .header .shortHeader) = true := by decide

/-- H1: the header registers. -/
theorem test_step_hdr : after (step (hostDecode (hdrBytes ++ endBytes) State.reset)) (fun t =>
    t.width = 2 && t.height = 1 && t.channels = 4 && t.colorspace = 0 && t.activity = .checkMarker) = true := by decide

/-- F3: the chunk region of `HDR C1 END`. -/
theorem test_step_end : after (step (marker (hdrBytes ++ [0xC1] ++ endBytes))) (fun t =>
    t.len = 1 && t.expected = 2 && Memory.read t.chunks 0 = 0xC1 && t.dec.status = .running) = true := by decide

/-- F8: a byte after the marker. -/
theorem test_step_end_missing : after (step (marker (hdrBytes ++ [0xFE, 0x0A, 0x14, 0x1E, 0xC0] ++ endBytes ++ [0x00])))
    (fun t => t.dec.status = .fault .missingEndMarker && t.dec.errinfo = .marker 28) = true := by decide

/-! ### One encoder step -/

/-- E9, third step: a flush and an `RGBA`, six bytes. -/
theorem test_enc_six_bytes :
    after (step (enc ⟨0, 0, 0, 0⟩ 1 [] ⟨0, 0, 0, 255⟩ true)) (fun t =>
      Memory.range t.encout 0 t.enc.outpos = [0xC0, 0xFF, 0x00, 0x00, 0x00, 0xFF] && t.enc.status = .done) = true := by
  decide

/-- E2, 62nd step: the cap. -/
theorem test_enc_cap :
    after (step (enc ⟨0, 0, 0, 255⟩ 61 [] ⟨0, 0, 0, 255⟩ false)) (fun t =>
      Memory.range t.encout 0 t.enc.outpos = [0xFD] && t.enc.run = 0) = true := by decide

/-- E8, second step: the deltas wrap, `Diff{1,-1,-1}`. -/
theorem test_enc_diff_wraps :
    after (step (enc ⟨255, 0, 128, 255⟩ 0 [] ⟨0, 255, 127, 255⟩ true)) (fun t =>
      Memory.range t.encout 0 t.enc.outpos = [0x75] && Cache.get t.enc.cache 41 = ⟨0, 255, 127, 255⟩) = true := by decide

/-- E5, second step: deltas `(-3,0,0)` are a `Luma`. -/
theorem test_enc_luma :
    after (step (enc ⟨10, 10, 10, 255⟩ 0 [] ⟨7, 10, 10, 255⟩ true)) (fun t =>
      Memory.range t.encout 0 t.enc.outpos = [0xA0, 0x58]) = true := by decide

/-- E10, third step: a hit, and `PREV` follows it (C1). -/
theorem test_enc_index :
    after (step (enc ⟨40, 50, 60, 255⟩ 0 [⟨10, 20, 30, 255⟩, ⟨40, 50, 60, 255⟩] ⟨10, 20, 30, 255⟩ false)) (fun t =>
      Memory.range t.encout 0 t.enc.outpos = [0x09] && t.enc.prev = ⟨10, 20, 30, 255⟩) = true := by decide

/-- E1, first step: an `RGB`. -/
theorem test_enc_rgb :
    after (step (enc ⟨0, 0, 0, 255⟩ 0 [] ⟨10, 20, 30, 255⟩ false)) (fun t =>
      Memory.range t.encout 0 t.enc.outpos = [0xFE, 0x0A, 0x14, 0x1E]) = true := by decide

/-- H1, and F17: the first step of `encode`. -/
theorem test_enc_header :
    after (step (hostEncode 2 1 4 0 [⟨10, 20, 30, 255⟩, ⟨10, 20, 30, 255⟩] State.reset)) (fun t =>
      Memory.range t.stream 0 t.slen = hdrBytes && t.enc.status = .running) = true ∧
    after (step (hostEncode 2 1 5 0 [] State.reset)) (fun t => t.enc.status = .fault .malformedHeader) = true := by decide

/-- F18: the last step of `encode`. -/
theorem test_enc_marker :
    after (step { State.reset with
      activity := .appendMarker, stream := bufferOf hdrBytes, slen := 14, encout := bufferOf [0xC0],
      enc := { State.reset.enc with outpos := 1 } }) (fun t =>
        encodeResult t = some (hdrBytes ++ [0xC0] ++ endBytes)) = true := by decide

/-- R174, R290, R295: an empty pass has the empty result; a `Running` pass has none, nor has it any when an `encode` call, here
with no pixel, abandons it; and that call's own pass, once started, has the empty result. -/
theorem test_encoder_pass_over :
    encoderOutput (hostStartEncoder [] none State.reset) = some [] ∧
    after (step (hostStartEncoder [Pixel.zero, Pixel.zero] (some 1) State.reset)) (fun t =>
      t.enc.status = .running ∧ t.enc.outpos ≠ 0 ∧ encoderOutput t = none ∧
        encoderOutput (hostEncode 0 0 4 0 [] t) = none ∧
        after (step (hostEncode 0 0 4 0 [] t)) (fun u => encoderOutput u = some []) = true) = true := by decide

/-! ### Witnesses: the hypotheses of the obligations can be met -/

theorem witness_DecodeOfEncode : (Instr.diff (-2) 1 (-2)).wellFormed = true ∧ (Instr.luma (-32) 7 (-8)).wellFormed = true ∧
    (Instr.luma 31 (-8) 7).wellFormed = true ∧ (Instr.run 1).wellFormed = true ∧ (Instr.run 62).wellFormed = true := by decide

theorem witness_EncodeOfDecode : decode defaultFormat .chunk [0xFD, 0x07] = .ok (.run 62, [0x07]) ∧
    decode defaultFormat .header (hdrBytes ++ [7]) = .ok (.hdr 2 1 4 0, [7]) ∧
    decode defaultFormat .marker endBytes = .ok (.endMarker, []) := by decide

theorem witness_ChunkLengthFromFirstByte :
    ([0xFE, 1, 2] : List Byte).length < (chunkKind defaultFormat 0xFE).length ∧
    (chunkKind defaultFormat 0xFE).length ≤ ([0xFE, 1, 2, 3] : List Byte).length ∧
    (chunkKind defaultFormat 0x00).length ≤ ([0x00] : List Byte).length := by decide

theorem witness_DefaultOpcodeMap : (0x3F : Byte).toNat ≤ 0x3F ∧ (0x40 ≤ (0x40 : Byte).toNat ∧ (0x7F : Byte).toNat ≤ 0x7F) ∧
    (0x80 ≤ (0x80 : Byte).toNat ∧ (0xBF : Byte).toNat ≤ 0xBF) ∧ (0xC0 ≤ (0xC0 : Byte).toNat ∧ (0xFD : Byte).toNat ≤ 0xFD) ∧
    chunkKind defaultFormat 0x3F = .index ∧ chunkKind defaultFormat 0x40 = .diff ∧ chunkKind defaultFormat 0x7F = .diff ∧
    chunkKind defaultFormat 0x80 = .luma ∧ chunkKind defaultFormat 0xBF = .luma ∧ chunkKind defaultFormat 0xC0 = .run ∧
    chunkKind defaultFormat 0xFD = .run := by decide

theorem witness_HeaderRoundTrip : HeaderLegal 3 0 ∧ HeaderLegal 4 1 ∧
    parseHeader defaultFormat (hdrBytes ++ [9]) = .ok (2, 1, 4, 0) := by decide

theorem witness_ParseHeaderReadsFourteenBytes : hdrBytes.length = 14 := by decide

theorem witness_BuildHeaderBytes : ((2 : Byte) ≠ 3 ∧ (2 : Byte) ≠ 4) ∧ ((5 : Byte) ≠ 3 ∧ (5 : Byte) ≠ 4) ∧
    (((3 : Byte) = 3 ∨ (3 : Byte) = 4) ∧ (2 : Byte) ≠ 0 ∧ (2 : Byte) ≠ 1) ∧ HeaderLegal 3 1 := by decide

/-- `dr - dg` at both ends of its range, and at both ends of the accepted one. -/
theorem witness_WrappedDifferencesAgree : (-128 : Int) - 31 = -159 ∧ (127 : Int) - (-32) = 159 ∧
    s8 (wrap8 (-159)) = 97 ∧ s8 (wrap8 159) = -97 ∧ s8 (wrap8 (-8 - 0)) = -8 ∧ s8 (wrap8 (31 - 24)) = 7 := by decide

/-- The truncation clause and the completion clause of the chunk statements, one byte apart. -/
theorem witness_chunks_short : (dec [0xFE, 1, 2] 1).len < (dec [0xFE, 1, 2] 1).dec.pos + 4 ∧
    (dec [0xFF, 1, 2, 3] 1).len < (dec [0xFF, 1, 2, 3] 1).dec.pos + 5 ∧
    (dec [0x80] 1).len < (dec [0x80] 1).dec.pos + 2 ∧ (dec [] 1).len < (dec [] 1).dec.pos + 1 := by decide

theorem witness_chunks_complete :
    (dec [0xFE, 1, 2, 3] 1).dec.pos + 4 ≤ (dec [0xFE, 1, 2, 3] 1).len ∧
    (dec [0xFF, 1, 2, 3, 4] 1).dec.pos + 5 ≤ (dec [0xFF, 1, 2, 3, 4] 1).len ∧
    (dec [0x80, 0] 1).dec.pos + 2 ≤ (dec [0x80, 0] 1).len ∧ (dec [0xC0] 1).dec.pos + 1 ≤ (dec [0xC0] 1).len ∧
    (dec [0xC0] 1).dec.outcnt < (dec [0xC0] 1).expected ∧ PixelMemory.wf (dec [0xC0] 1).pixout := by decide

theorem witness_chunks_kinds : chunkKind defaultFormat 0x00 = .index ∧ chunkKind defaultFormat 0x7F = .diff ∧
    chunkKind defaultFormat 0x80 = .luma ∧ chunkKind defaultFormat 0xFD = .run := by decide

theorem witness_IndexKeepsCache : SlotDiscipline (dec [0x05] 1).fmt.hash (dec [0x05] 1).dec.cache ∧
    ∃ t, exec (.index 5) (dec [0x05] 1) = .next t :=
  ⟨slotDiscipline_zero _, _, rfl⟩

theorem witness_StepRunsDecoded :
    decode defaultFormat .header (Memory.range (hostDecode hdrBytes State.reset).stream 0
      (hostDecode hdrBytes State.reset).slen) = .ok (.hdr 2 1 4 0, []) ∧
    (22 ≤ (marker (hdrBytes ++ endBytes)).slen ∧
      decode defaultFormat .marker (Memory.range (marker (hdrBytes ++ endBytes)).stream
        ((marker (hdrBytes ++ endBytes)).slen - 8) 8) = .ok (.endMarker, [])) ∧
    ((dec [0xC0, 7] 1).activity = .decodeChunks ∧ (dec [0xC0, 7] 1).dec.status = .running ∧
      decode defaultFormat .chunk (Memory.range (dec [0xC0, 7] 1).chunks (dec [0xC0, 7] 1).dec.pos
        ((dec [0xC0, 7] 1).len - (dec [0xC0, 7] 1).dec.pos)) = .ok (.run 1, [7])) := by decide

/-- The two cases of truncation. -/
theorem witness_StepRaisesTruncated : (DecoderEnabled (dec [] 1) ∧ (dec [] 1).len ≤ (dec [] 1).dec.pos) ∧
    (DecoderEnabled (dec [0x80] 1) ∧ (dec [0x80] 1).len < (dec [0x80] 1).dec.pos
      + (chunkKind (dec [0x80] 1).fmt (Memory.read (dec [0x80] 1).chunks (dec [0x80] 1).dec.pos)).length) := by decide

/-- Each branch of the decoder step. -/
theorem witness_DecoderStep :
    (DecoderEnabled (dec [0xFE, 1, 2, 3] 1) ∧ PixelMemory.wf (dec [0xFE, 1, 2, 3] 1).pixout ∧
      (dec [0xFE, 1, 2, 3] 1).dec.pos + (chunkKind defaultFormat 0xFE).length ≤ (dec [0xFE, 1, 2, 3] 1).len ∧
      Memory.read (dec [0xFE, 1, 2, 3] 1).chunks 0 = defaultFormat.fullTags.rgb) ∧
    (DecoderEnabled (dec [0xFF, 1, 2, 3, 4] 1) ∧
      (dec [0xFF, 1, 2, 3, 4] 1).dec.pos + (chunkKind defaultFormat 0xFF).length ≤ (dec [0xFF, 1, 2, 3, 4] 1).len ∧
      Memory.read (dec [0xFF, 1, 2, 3, 4] 1).chunks 0 = defaultFormat.fullTags.rgba) ∧
    bits 0x3F 6 2 = defaultFormat.tags.index ∧ bits 0x40 6 2 = defaultFormat.tags.diff ∧
    bits 0xBF 6 2 = defaultFormat.tags.luma ∧ bits 0xFD 6 2 = tagRun ∧
    (dec [0xBF, 0] 1).dec.pos + (chunkKind defaultFormat 0xBF).length ≤ (dec [0xBF, 0] 1).len ∧
    (dec [0xFD] 1).dec.pos + (chunkKind defaultFormat 0xFD).length ≤ (dec [0xFD] 1).len := by decide

theorem witness_ChunkReadsOnlyItsBytes : DecoderEnabled (dec [0xC0, 0xAA] 1) ∧
    (dec [0xC0, 0xAA] 1).dec.pos
      + (chunkKind defaultFormat (Memory.read (dec [0xC0, 0xAA] 1).chunks 0)).length ≤ (dec [0xC0, 0xAA] 1).len ∧
    (∀ k, k < 1 → Memory.read (bufferOf [0xC0, 0xBB]) (0 + k) = Memory.read (dec [0xC0, 0xAA] 1).chunks (0 + k)) ∧
    Memory.read (bufferOf [0xC0, 0xBB]) 1 ≠ Memory.read (dec [0xC0, 0xAA] 1).chunks 1 := by decide

theorem witness_DecoderPassEnds : DecoderEnabled (dec [0xC0] 1) ∧ (dec [0xC0] 1).dec.pos ≤ (dec [0xC0] 1).len ∧
    DecoderEnabled (dec [] 1) ∧ (dec [] 1).dec.pos ≤ (dec [] 1).len := by decide

theorem witness_headers : HeaderLegal 3 0 ∧ HeaderLegal 4 1 ∧ ((5 : Byte) ≠ 3 ∧ (5 : Byte) ≠ 4) ∧
    (((4 : Byte) = 3 ∨ (4 : Byte) = 4) ∧ (2 : Byte) ≠ 0 ∧ (2 : Byte) ≠ 1) ∧
    (hostDecode hdrBytes State.reset).activity = .parseHeader := by decide

/-- Room for the marker and one byte less; a pass with no pixel and with two. -/
theorem witness_EndMarkerStartsPass : 22 ≤ (marker (hdrBytes ++ endBytes)).slen ∧
    (marker (hdrBytes ++ endBytes)).width.toNat * (marker (hdrBytes ++ endBytes)).height.toNat ≠ 0 ∧
    22 ≤ ({ marker (hdrBytes ++ endBytes) with width := 0 } : State).slen ∧
    (0 : BitVec 32).toNat * (marker (hdrBytes ++ endBytes)).height.toNat = 0 ∧
    (marker (hdrBytes ++ endBytes.take 7)).slen < 22 := by decide

theorem witness_DecodeChecksMarker : (marker (hdrBytes ++ endBytes.take 7)).activity = .checkMarker ∧
    (marker (hdrBytes ++ endBytes.take 7)).slen < 22 ∧
    Memory.range (marker (hdrBytes ++ endBytes ++ [0])).stream ((marker (hdrBytes ++ endBytes ++ [0])).slen - 8) 8
      ≠ [0, 0, 0, 0, 0, 0, 0, 1] ∧
    22 ≤ (marker (hdrBytes ++ endBytes)).slen ∧
    Memory.range (marker (hdrBytes ++ endBytes)).stream ((marker (hdrBytes ++ endBytes)).slen - 8) 8
      = [0, 0, 0, 0, 0, 0, 0, 1] := by decide

theorem witness_EncodeBuildsHeader :
    (hostEncode 0 5 3 1 [] State.reset).activity = .buildHeader ∧
    HeaderLegal (hostEncode 0 5 3 1 [] State.reset).channels (hostEncode 0 5 3 1 [] State.reset).colorspace ∧
    (hostEncode 0 5 3 1 [] State.reset).npix = 0 ∧ (hostEncode 1 1 4 0 [Pixel.zero] State.reset).npix ≠ 0 ∧
    ¬ HeaderLegal (hostEncode 1 1 5 0 [Pixel.zero] State.reset).channels 0 ∧ ¬ HeaderLegal 4 2 := by decide

theorem witness_EncodeAppendsMarker : ({ State.reset with activity := .appendMarker } : State).activity = .appendMarker ∧
    Memory.wf ({ State.reset with activity := .appendMarker } : State).stream := by decide

/-- The branches of the encoder step: a run counted, at the cap and at the last pixel; a hit; a changed alpha; `Diff`, `Luma`
and `RGB` at the ends of their ranges; with and without a pending run. -/
theorem witness_EncoderStepTable :
    (Memory.wf (enc ⟨0, 0, 0, 255⟩ 60 [] ⟨0, 0, 0, 255⟩ false).encout ∧
      (enc ⟨0, 0, 0, 255⟩ 61 [] ⟨0, 0, 0, 255⟩ false).enc.run.toNat ≤ 61 ∧
      (enc ⟨0, 0, 0, 255⟩ 60 [] ⟨0, 0, 0, 255⟩ false).enc.run.toNat + 1 ≠ 62 ∧
      (enc ⟨0, 0, 0, 255⟩ 61 [] ⟨0, 0, 0, 255⟩ false).enc.run.toNat + 1 = 62) ∧
    Cache.get (enc ⟨1, 1, 1, 255⟩ 1 [] Pixel.zero false).enc.cache (HashFn.slot .publicFormat Pixel.zero) = Pixel.zero ∧
    (Cache.get Cache.zero (HashFn.slot .publicFormat ⟨5, 5, 5, 128⟩) ≠ ⟨5, 5, 5, 128⟩ ∧ (128 : Byte) ≠ 255) ∧
    (delta 8 10 = -2 ∧ delta 11 10 = 1) ∧
    (delta 68 100 = -32 ∧ delta 131 100 = 31 ∧ delta 60 100 - delta 68 100 = -8 ∧ delta 138 100 - delta 131 100 = 7) ∧
    (delta 32 0 = 32 ∧ delta 248 0 - delta 1 0 = -9) := by decide

theorem witness_EncoderStepCompletes : EncoderEnabled false (enc Pixel.zero 0 [] Pixel.zero false) ∧
    EncoderEnabled true { enc Pixel.zero 0 [] Pixel.zero true with activity := .encodePixels true } := by decide

/-- E9's third step emits six bytes. -/
theorem witness_StepEmitsAtMostSix :
    (encStep ⟨0, 0, 0, 255⟩ true (enc ⟨0, 0, 0, 0⟩ 1 [] ⟨0, 0, 0, 255⟩ true)).enc.outpos
      = (enc ⟨0, 0, 0, 0⟩ 1 [] ⟨0, 0, 0, 255⟩ true).enc.outpos + 6 := by decide

/-- Both alternatives of the recency property. -/
theorem witness_EncoderCacheRecency : EncoderRecent (passStartEnc false State.reset) ∧
    EncoderRecent (enc ⟨1, 1, 1, 255⟩ 0 [⟨1, 1, 1, 255⟩] Pixel.zero false) ∧
    Pixel.zero ≠ (passStartEnc false State.reset).enc.prev := by decide

theorem witness_NeverEmitted : (⟨7, 10, 10, 255⟩ : Pixel) ≠ ⟨10, 10, 10, 255⟩ ∧
    newPixelChunk .publicFormat Cache.zero ⟨10, 10, 10, 255⟩ ⟨7, 10, 10, 255⟩ = .luma 0 (-3) 0 := by decide

theorem witness_SelectedChunkDecodes : (⟨1, 1, 1, 255⟩ : Pixel) ≠ (dec [0x7F] 1).dec.prev ∧
    newPixelChunk (dec [0x7F] 1).fmt.hash Cache.zero (dec [0x7F] 1).dec.prev ⟨1, 1, 1, 255⟩ = .diff 1 1 1 ∧
    Cache.get (dec [0x7F] 1).dec.cache 4 = Cache.get Cache.zero 4 ∧ (dec [0x7F] 1).dec.pos + 1 ≤ (dec [0x7F] 1).len ∧
    (dec [0x7F] 1).dec.outcnt < (dec [0x7F] 1).expected ∧ PixelMemory.wf (dec [0x7F] 1).pixout := by decide

theorem witness_PassStartValues : (dec [0x55] 0).dec.status = .done ∧ (dec [0x55] 1).dec.status = .running := by decide

/-- Both clauses: a pass over two pixels after its first step, which does not carry `last`, and after its second, which does. -/
theorem witness_EncoderPassOver :
    after (Host.Core.run Sys2Proof.core 1 (hostStartEncoder [Pixel.zero, ⟨1, 2, 3, 4⟩] (some 1) State.reset)) (fun t =>
      t.enc.status = .running ∧ t.enc.idx = 1) = true ∧ ¬ (∃ j, 1 = j + 1 ∧ some 1 = some j) ∧
    after (Host.Core.run Sys2Proof.core 2 (hostStartEncoder [Pixel.zero, ⟨1, 2, 3, 4⟩] (some 1) State.reset)) (fun t =>
      t.enc.status = .done) = true ∧ (∃ j, 2 = j + 1 ∧ some 1 = some j) :=
  ⟨by decide, by rintro ⟨j, h1, h2⟩; cases h2; omega, by decide, 1, rfl, rfl⟩

/-- The invariant at a running decoder pass and at a running encoder pass with a run pending; and both step. -/
theorem witness_StepKeepsInv_decoder : Inv (dec [0xC0] 1) ∧ ∃ t, step (dec [0xC0] 1) = .next t := by
  refine ⟨⟨⟨by decide, by decide, by decide, by decide, by decide⟩, slotDiscipline_zero _, slotDiscipline_zero _, ?_, ?_, ?_,
    ?_, ?_, ?_, ?_, ?_, ?_, ?_, ?_, ?_⟩, _, rfl⟩
  · decide
  · decide
  · intro _ h
    cases h
  · intro h
    cases h
  · intro _ h
    cases h
  · decide
  · decide
  · decide
  · intro _
    decide
  · intro h
    cases h
  · intro h
    cases h
  · decide

theorem witness_StepKeepsInv_encoder :
    Inv { hostStartEncoder [⟨0, 0, 0, 255⟩, ⟨0, 0, 0, 255⟩] (some 1) State.reset with
      enc := { freshEncoder defaultFormat with run := 1, idx := 1 } } ∧
    ∃ t, step { hostStartEncoder [⟨0, 0, 0, 255⟩, ⟨0, 0, 0, 255⟩] (some 1) State.reset with
      enc := { freshEncoder defaultFormat with run := 1, idx := 1 } } = .next t := by
  refine ⟨⟨⟨by decide, by decide, by decide, by decide, by decide⟩, slotDiscipline_zero _, slotDiscipline_zero _, ?_, ?_, ?_,
    ?_, ?_, ?_, ?_, ?_, ?_, ?_, ?_, ?_⟩, _, rfl⟩
  · decide
  · decide
  · intro _ _ k h1 h2
    have : k = 0 := Nat.lt_one_iff.1 h1
    subst this
    decide
  · intro h
    cases h
  · intro _ _
    decide
  · decide
  · decide
  · decide
  · intro h
    cases h
  · intro h
    cases h
  · intro h
    cases h
  · decide

/-- Each kind of activity that the frame statements speak of steps to a next state. -/
theorem witness_frames : (∃ t, step (hostDecode hdrBytes State.reset) = .next t) ∧
    (∃ t, step (marker (hdrBytes ++ endBytes)) = .next t) ∧ (∃ t, step (dec [0xC0] 1) = .next t) ∧
    (∃ t, step (hostEncode 1 1 4 0 [Pixel.zero] State.reset) = .next t) ∧
    (∃ t, step (enc Pixel.zero 0 [] Pixel.zero true) = .next t) ∧
    (∃ t, step { State.reset with activity := .appendMarker } = .next t) ∧
    (enc Pixel.zero 0 [] Pixel.zero true).activity = .encodePixels false :=
  ⟨⟨_, rfl⟩, ⟨_, rfl⟩, ⟨_, rfl⟩, ⟨_, rfl⟩, ⟨_, rfl⟩, ⟨_, rfl⟩, rfl⟩

/-- A status of the reserved kind put there from outside survives a step of the other instance. -/
theorem witness_SizeMismatchNeverRaised :
    after (step { dec [0xC0] 1 with enc := { State.reset.enc with status := .fault .sizeMismatch } })
      (fun t => t.enc.status = .fault .sizeMismatch) = true := by decide

/-- An ended pass whose `STATUS` a new call changes. -/
theorem witness_EndedPassStays :
    after (step { hostDecode [] State.reset with dec := { State.reset.dec with status := .done } })
      (fun t => t.dec.status ≠ .done) = true ∧
    after (step { hostEncode 1 1 4 0 [Pixel.zero] State.reset with
      enc := { State.reset.enc with status := .fault .malformedHeader } })
      (fun t => t.enc.status = .running) = true := by decide

theorem witness_FaultDeliversNothing : (raise .decoder .truncatedStream (.truncated 0 0) (dec [] 1)).dec.status
      = .fault .truncatedStream ∧
    (raise .encoder .malformedHeader (.header .badChannels) State.reset).enc.status = .fault .malformedHeader := by decide

theorem witness_ChunkRoundTrip : ([Pixel.zero] : List Pixel) ≠ [] ∧ HashAdmissible State.reset.fmt ∧
    Memory.wf State.reset.encout ∧ PixelMemory.wf State.reset.pixout := by decide

theorem witness_ImageRoundTrip : 1 ≤ (1 : BitVec 32).toNat ∧ HeaderLegal 3 0 ∧
    ([Pixel.zero] : List Pixel).length = (1 : BitVec 32).toNat * (1 : BitVec 32).toNat ∧ HashAdmissible State.reset.fmt := by
  decide

theorem witness_CachesRelated : ∃ e, Host.Core.run Sys2Proof.core 1 (hostStartEncoder [Pixel.zero] (lastOf 1) State.reset)
    = .next e ∧ e.enc.run = 0 := ⟨_, rfl, by decide⟩

theorem witness_EncodeCallEnds : HeaderLegal 3 1 ∧ ¬ HeaderLegal 5 0 ∧ ¬ HeaderLegal 3 2 ∧ Memory.wf State.reset.encout := by
  decide

end Sys2Proof.Tests
end

section
/-! SUPPORT. Channel arithmetic (R10 to R12) through the signed remainder `Int.bmod`, and when `step` stops (R18, R26, R161). -/

namespace Sys2Proof.Machine

/-! ### Channel arithmetic -/

theorem s8_eq_toInt (v : Byte) : s8 v = v.toInt := by
  rw [s8, BitVec.toInt_eq_toNat_cond]
  split <;> split <;> omega

/-- R10, R11: a wrapped integer read as signed is its remainder in -128 to 127. -/
theorem s8_wrap8 (x : Int) : s8 (wrap8 x) = x.bmod 256 := by
  rw [s8_eq_toInt, wrap8, BitVec.toInt_ofInt]

theorem wrap8_congr {x y : Int} (h : x.bmod 256 = y.bmod 256) : wrap8 x = wrap8 y :=
  BitVec.eq_of_toInt_eq (by rw [← s8_eq_toInt, ← s8_eq_toInt, s8_wrap8, s8_wrap8, h])

theorem wrap8_toNat (c : Byte) : wrap8 (c.toNat : Int) = c := by
  rw [wrap8, BitVec.ofInt_natCast, BitVec.ofNat_toNat, BitVec.setWidth_eq]

/-- R12: the delta is the difference's remainder in -128 to 127. -/
theorem delta_eq_bmod (c e : Byte) : delta c e = ((c.toNat : Int) - (e.toNat : Int)).bmod 256 := s8_wrap8 _

theorem delta_range (c e : Byte) : -128 ≤ delta c e ∧ delta c e ≤ 127 := by
  have hlow := Int.le_bmod (x := (c.toNat : Int) - e.toNat) (m := 256) (by decide)
  have hhigh := Int.bmod_lt (x := (c.toNat : Int) - e.toNat) (m := 256) (by decide)
  rw [← delta_eq_bmod] at hlow hhigh
  omega

theorem delta_congr (c e : Byte) : (delta c e - ((c.toNat : Int) - (e.toNat : Int))) % 256 = 0 := by
  rw [delta_eq_bmod]
  exact Int.emod_eq_emod_iff_emod_sub_eq_zero.1 (Int.bmod_emod ..)

/-- R12: adding the delta back gives the channel, because wrapping forgets multiples of 256. -/
theorem add8_delta (c e : Byte) : add8 e (delta c e) = c :=
  calc add8 e (delta c e)
      = wrap8 (e.toNat + ((c.toNat : Int) - e.toNat).bmod 256) := by rw [add8, delta_eq_bmod]
    _ = wrap8 (e.toNat + ((c.toNat : Int) - e.toNat)) := wrap8_congr Int.add_bmod_bmod
    _ = wrap8 c.toNat := by rw [add_sub_cancel]
    _ = c := wrap8_toNat c

/-- Settles O10: the delta is the signed remainder of the difference; the five examples are evaluated. -/
theorem deltaAddsBack : Obligations.DeltaAddsBack := by
  refine ⟨fun c e => ?_, by decide⟩
  obtain ⟨hlow, hhigh⟩ := delta_range c e
  exact ⟨rfl, hlow, hhigh, delta_congr c e, add8_delta c e⟩

/-! ### When a step is enabled -/

/-- R18, R26: there is nothing to do, because no operation is in progress or its pass is not `Running`. -/
def NoStepEnabled (s : State) : Prop :=
  s.activity = .idle ∨ s.activity = .streamReturned ∨ (s.activity = .decodeChunks ∧ s.dec.status ≠ .running) ∨
    ((∃ framed, s.activity = .encodePixels framed) ∧ s.enc.status ≠ .running)

/-- R161: a `Running` encoder pass has consumed every pixel it was given. -/
def NoPixelPresented (s : State) : Prop :=
  (∃ framed, s.activity = .encodePixels framed) ∧ s.enc.status = .running ∧ s.npix ≤ s.enc.idx

/-- A pass that has run out of pixels is still `Running`, so its step is not disabled by `STATUS`. -/
theorem NoPixelPresented.not_noStepEnabled {s : State} (h : NoPixelPresented s) : ¬ NoStepEnabled s := by
  obtain ⟨⟨framed, ha⟩, hs, -⟩ := h
  simp [NoStepEnabled, ha, hs]

theorem exec_next (i : Instr) (s : State) : ∃ t, exec i s = .next t := by
  obtain ⟨-, -, h⟩ | ⟨-, -, h⟩ | ⟨_, _, _, _, _, -, -, h⟩ | ⟨_, _, _, _, -, -, h⟩ | ⟨-, -, h⟩ | ⟨-, -, h⟩ :=
    exec_cases i s <;> exact ⟨_, h⟩

theorem runFetched_next (f : Fetched) (s : State) : ∃ t, runFetched f s = .next t := by
  cases f with
  | run i => exact exec_next i s
  | traps k info => exact ⟨_, rfl⟩

/-- What `step` answers, in every state: one of the two stops, each in its own states, or else a next state. -/
theorem step_answers (s : State) :
    (NoStepEnabled s ∧ step s = .fault .noStepEnabled) ∨
    (NoPixelPresented s ∧ step s = .fault .noPixelPresented) ∨
    (¬ NoStepEnabled s ∧ ¬ NoPixelPresented s ∧ ∃ t, step s = .next t) := by
  cases ha : s.activity with
  | idle => exact .inl ⟨.inl ha, by simp [step, ha]⟩
  | streamReturned => exact .inl ⟨.inr (.inl ha), by simp [step, ha]⟩
  | parseHeader => simp [NoStepEnabled, NoPixelPresented, step, ha, runFetched_next]
  | checkMarker => simp [NoStepEnabled, NoPixelPresented, step, ha, runFetched_next]
  | buildHeader => simp [NoStepEnabled, NoPixelPresented, step, ha]
  | appendMarker => simp [NoStepEnabled, NoPixelPresented, step, ha]
  | decodeChunks =>
    by_cases hs : s.dec.status = .running
    · simp [NoStepEnabled, NoPixelPresented, step, ha, hs, runFetched_next]
    · exact .inl ⟨.inr (.inr (.inl ⟨ha, hs⟩)), by simp [step, ha, hs]⟩
  | encodePixels framed =>
    by_cases hs : s.enc.status = .running
    · by_cases hn : s.npix ≤ s.enc.idx
      · exact .inr (.inl ⟨⟨⟨framed, ha⟩, hs, hn⟩, by simp [step, ha, encoderStep, hs, hn]⟩)
      · simp [NoStepEnabled, NoPixelPresented, step, ha, encoderStep, hs, hn]
    · exact .inl ⟨.inr (.inr (.inr ⟨⟨framed, ha⟩, hs⟩)), by simp [step, ha, encoderStep, hs]⟩

theorem step_ne_refused (s : State) (r : Refusal) : step s ≠ .refused r := by
  obtain ⟨-, h⟩ | ⟨-, h⟩ | ⟨-, -, t, h⟩ := step_answers s <;> simp [h]

theorem step_eq_noStepEnabled_iff (s : State) : step s = .fault .noStepEnabled ↔ NoStepEnabled s := by
  obtain ⟨hs, h⟩ | ⟨hp, h⟩ | ⟨hs, -, t, h⟩ := step_answers s
  · simp [h, hs]
  · simp [h, hp.not_noStepEnabled]
  · simp [h, hs]

theorem step_eq_noPixelPresented_iff (s : State) : step s = .fault .noPixelPresented ↔ NoPixelPresented s := by
  obtain ⟨hs, h⟩ | ⟨hp, h⟩ | ⟨-, hp, t, h⟩ := step_answers s
  · have hp : ¬ NoPixelPresented s := fun hp => hp.not_noStepEnabled hs
    simp [h, hp]
  · simp [h, hp]
  · simp [h, hp]

/-- Settles O53: the three answers of `step`, each in its own states, and the one of `exec`. -/
theorem stepStopsExactly : Obligations.StepStopsExactly :=
  ⟨fun s => ⟨step_ne_refused s, step_eq_noStepEnabled_iff s, step_eq_noPixelPresented_iff s⟩, exec_next⟩

end Sys2Proof.Machine
end

section
/-! SUPPORT. The machine's invariant (R22, R146, R173, R201, R209, R211, R240, R264): it holds at reset, and every effect of a
step keeps it, one lemma per effect. -/

namespace Sys2Proof.Machine

/-! ### Reset -/

/-- Settles O46: the buffers are empty, the counters 0, and no pass has started. -/
theorem resetInv : Obligations.ResetInv where
  buffers := ⟨Memory.wf_nil, Memory.wf_nil, Memory.wf_nil, PixelMemory.wf_nil, PixelMemory.wf_nil⟩
  encSlots := slotDiscipline_zero _
  decSlots := slotDiscipline_zero _
  run := by decide
  runIdx := by decide
  pending := nofun
  flushed := nofun
  idx := nofun
  outpos := by decide
  pos := le_rfl
  outcnt := le_rfl
  owes := nofun
  complete := nofun
  header := nofun
  noSizeMismatch := by decide

/-! ### The decoder's status and what follows it -/

@[simp] theorem decoderStatus_eq_done_iff {outcnt expected : Nat} :
    decoderStatus outcnt expected = .done ↔ outcnt = expected := by
  simp [decoderStatus_eq]

@[simp] theorem decoderStatus_eq_running_iff {outcnt expected : Nat} :
    decoderStatus outcnt expected = .running ↔ outcnt ≠ expected := by
  simp [decoderStatus_eq]

@[simp] theorem decoderStatus_ne_fault (outcnt expected : Nat) (k : ErrorKind) :
    decoderStatus outcnt expected ≠ .fault k := by
  rw [decoderStatus_eq]
  split <;> simp

@[simp] theorem decoderActivity_ne_encodePixels (st : Status) (framed : Bool) :
    decoderActivity st ≠ .encodePixels framed := by
  unfold decoderActivity
  split <;> simp

@[simp] theorem decoderActivity_ne_checkMarker (st : Status) : decoderActivity st ≠ .checkMarker := by
  unfold decoderActivity
  split <;> simp

/-! ### The effects of a `decode` call -/

theorem inv_raise_decoder {s : State} {k : ErrorKind} (info : ErrInfo) (hs : Inv s) (hk : k ≠ .sizeMismatch) :
    Inv (raise .decoder k info s) :=
  { hs with
    buffers := { hs.buffers with }
    pending := nofun
    idx := nofun
    owes := nofun
    complete := nofun
    header := nofun
    noSizeMismatch := ⟨hs.noSizeMismatch.1, by simp [hk]⟩ }

theorem inv_headerParsed {s : State} (w h : BitVec 32) {c cs : Byte} (hs : Inv s) (hl : HeaderLegal c cs) :
    Inv { s with width := w, height := h, channels := c, colorspace := cs, activity := .checkMarker } :=
  { hs with
    buffers := { hs.buffers with }
    pending := nofun
    idx := nofun
    header := fun _ => hl }

/-- R40: a decoder pass may start over any chunk region, length and number of pixels. -/
theorem inv_passStartDec {s : State} {chunks : Memory} (len expected : Nat) (hs : Inv s) (hc : Memory.wf chunks) :
    Inv (passStartDec { s with chunks := chunks, len := len, expected := expected }) :=
  { hs with
    buffers := { hs.buffers with chunks := hc }
    decSlots := slotDiscipline_zero _
    pending := by simp
    idx := by simp
    pos := Nat.zero_le _
    outcnt := Nat.zero_le _
    owes := fun h => Nat.pos_of_ne_zero (decoderStatus_eq_running_iff.1 h).symm
    complete := decoderStatus_eq_done_iff.1
    header := by simp
    noSizeMismatch := ⟨hs.noSizeMismatch.1, decoderStatus_ne_fault _ _ _⟩ }

/-- R211: what is emitted is owed. -/
theorem outcnt_add_owed_le (n : Nat) {s : State} (h : s.dec.outcnt ≤ s.expected) :
    s.dec.outcnt + owed n s ≤ s.expected := by
  unfold owed
  omega

theorem inv_retire {s : State} {length : Nat} (n : Nat) (px : Pixel) (hs : Inv s) (hfits : s.dec.pos + length ≤ s.len) :
    Inv (retire length n px s) :=
  have hle := outcnt_add_owed_le n hs.outcnt
  { hs with
    buffers := { hs.buffers with pixout := PixelMemory.wf_writeAll _ _ hs.buffers.pixout }
    decSlots := slotDiscipline_put hs.decSlots
    pending := by simp
    idx := by simp
    pos := hfits
    outcnt := hle
    owes := fun h => lt_of_le_of_ne hle (decoderStatus_eq_running_iff.1 h)
    complete := decoderStatus_eq_done_iff.1
    header := by simp
    noSizeMismatch := ⟨hs.noSizeMismatch.1, decoderStatus_ne_fault _ _ _⟩ }

/-! ### The effects of an `encode` call -/

theorem inv_raise_encoder {s : State} {k : ErrorKind} (info : ErrInfo) (hs : Inv s) (hk : k ≠ .sizeMismatch) :
    Inv (raise .encoder k info s) :=
  { hs with
    buffers := { hs.buffers with }
    pending := nofun
    flushed := nofun
    idx := nofun
    header := nofun
    noSizeMismatch := ⟨by simp [hk], hs.noSizeMismatch.2⟩ }

/-- R40: an encoder pass starts with nothing consumed and nothing pending, whatever `STREAM` holds by then. -/
theorem inv_freshEncoder {s : State} {stream : Memory} (slen : Nat) (a : Activity) (hs : Inv s) (hw : Memory.wf stream)
    (ha : a ≠ .checkMarker) :
    Inv { s with stream := stream, slen := slen, enc := freshEncoder s.fmt, activity := a } :=
  { hs with
    buffers := { hs.buffers with stream := hw }
    encSlots := slotDiscipline_zero _
    run := Nat.zero_le _
    runIdx := le_rfl
    pending := nofun
    flushed := nofun
    idx := fun _ _ => Nat.zero_le _
    outpos := le_rfl
    header := fun h => absurd h ha
    noSizeMismatch := ⟨by simp [freshEncoder], hs.noSizeMismatch.2⟩ }

theorem inv_buildHeaderStep {s : State} (hs : Inv s) : Inv (buildHeaderStep s) := by
  obtain ⟨d, -, h⟩ | ⟨-, h⟩ := buildHeaderStep_cases s <;> rw [h]
  · exact inv_raise_encoder _ hs (by simp)
  · exact inv_freshEncoder _ _ hs (Memory.wf_writeAll _ _ Memory.wf_nil) (by split <;> simp)

theorem inv_appendMarkerStep {s : State} (hs : Inv s) : Inv (appendMarkerStep s) :=
  { hs with
    buffers := { hs.buffers with stream := Memory.wf_writeAll _ _ hs.buffers.stream }
    pending := nofun
    idx := nofun
    header := nofun }

/-! ### The encoder step -/

theorem newPixelChunk_length_le (h : HashFn) (c : Cache) (prev p : Pixel) : (newPixelChunk h c prev p).length ≤ 5 := by
  obtain ⟨-, e⟩ | ⟨-, -, e⟩ | ⟨-, -, -, e⟩ | ⟨-, -, -, -, e⟩ | ⟨-, -, -, -, e⟩ := newPixelChunk_cases h c prev p <;>
    simp [e, Instr.length]

theorem length_encode_run (f : Format) (count : Nat) : (encode f (.run count)).length = 1 := rfl

theorem toNat_run_add_one {v : BitVec 6} (h : v.toNat ≤ 61) : (v + 1).toNat = v.toNat + 1 :=
  BitVec.toNat_add_of_lt (by simp; omega)

/-- R162, R164, R173: a step counts the pixel into the run and emits nothing, or it leaves no run pending, and then emits one
byte for the flush of a pending run and five at most for the pixel. -/
theorem runAfter_stepBytes_cases (p : Pixel) (last : Bool) {s : State} (hrun : s.enc.run.toNat ≤ 61) :
    (p = s.enc.prev ∧ last = false ∧ s.enc.run.toNat < 61 ∧ (runAfter p last s).toNat = s.enc.run.toNat + 1 ∧
      stepBytes p last s = []) ∨
    ((runAfter p last s).toNat = 0 ∧ (stepBytes p last s).length ≤ s.enc.run.toNat + 5) := by
  by_cases hp : p = s.enc.prev
  · by_cases hflush : s.enc.run + 1 = 62 ∨ last = true
    · right
      rw [runAfter, stepBytes, if_pos hp, if_pos hp, if_pos hflush, if_pos hflush, length_encode_run]
      exact ⟨rfl, by omega⟩
    · left
      obtain ⟨hcap, hlast⟩ := not_or.1 hflush
      have hsucc := toNat_run_add_one hrun
      have hne : s.enc.run.toNat + 1 ≠ 62 := fun e => hcap (BitVec.eq_of_toNat_eq (hsucc.trans e))
      rw [runAfter, stepBytes, if_pos hp, if_pos hp, if_neg hflush, if_neg hflush]
      exact ⟨hp, Bool.eq_false_iff.2 hlast, by omega, hsucc, rfl⟩
  · right
    have hchunk := newPixelChunk_length_le s.fmt.hash s.enc.cache s.enc.prev p
    rw [runAfter, stepBytes, if_neg hp, if_neg hp]
    refine ⟨rfl, ?_⟩
    by_cases hr : s.enc.run = 0
    · rw [if_pos hr, List.nil_append, encode_length]
      omega
    · have hpos : s.enc.run.toNat ≠ 0 := fun e => hr (BitVec.eq_of_toNat_eq e)
      rw [if_neg hr, List.length_append, length_encode_run, encode_length]
      omega

theorem slotDiscipline_missWrite {h : HashFn} {c : Cache} (p : Pixel) (hc : SlotDiscipline h c) :
    SlotDiscipline h (missWrite h c p) := by
  unfold missWrite
  split
  · exact hc
  · exact slotDiscipline_put hc

theorem slotDiscipline_cacheAfter {s : State} (p : Pixel) (hc : SlotDiscipline s.fmt.hash s.enc.cache) :
    SlotDiscipline s.fmt.hash (cacheAfter p s) := by
  unfold cacheAfter
  split
  · exact hc
  · exact slotDiscipline_missWrite p hc

@[simp] theorem encoderActivity_ne_checkMarker (framed : Bool) (s : State) : encoderActivity framed s ≠ .checkMarker := by
  unfold encoderActivity
  split
  · split <;> simp
  · split <;> simp

/-- R161: the step that consumes `PIXIN[IDX]`, as one record. -/
theorem encodePixelStep_record {framed : Bool} {s : State} {p : Pixel} {last : Bool}
    (hp : PixelMemory.read s.pixin s.enc.idx = p) (hlast : lastInput s = last) :
    encodePixelStep framed s =
      { s with
        encout := Memory.writeAll s.encout s.enc.outpos (stepBytes p last s)
        enc :=
          { prev := p
            cache := cacheAfter p s
            run := runAfter p last s
            idx := s.enc.idx + 1
            outpos := s.enc.outpos + (stepBytes p last s).length
            status := if last then .done else s.enc.status
            errinfo := s.enc.errinfo }
        activity := encoderActivity framed (encStep p last s) } := by
  simp only [encodePixelStep, hp, hlast, encStep_eq]

theorem inv_encodePixelStep {framed : Bool} {s : State} (hs : Inv s) (he : EncoderEnabled framed s) :
    Inv (encodePixelStep framed s) := by
  obtain ⟨ha, hstatus, hidx⟩ := he
  generalize hp : PixelMemory.read s.pixin s.enc.idx = p
  generalize hlast : lastInput s = last
  rw [encodePixelStep_record hp hlast]
  have hcases := runAfter_stepBytes_cases p last hs.run
  have hrunIdx := hs.runIdx
  have houtpos := hs.outpos
  exact
    { hs with
      buffers := { hs.buffers with encout := Memory.wf_writeAll _ _ hs.buffers.encout }
      encSlots := slotDiscipline_cacheAfter p hs.encSlots
      run := by
        obtain ⟨-, -, hr, hrun, -⟩ | ⟨hrun, -⟩ := hcases
        · simp only [hrun]; omega
        · simp [hrun]
      runIdx := by
        obtain ⟨-, -, -, hrun, -⟩ | ⟨hrun, -⟩ := hcases
        · simp only [hrun]; omega
        · simp [hrun]
      pending := fun _ _ k hlt hge => by
        simp only at hlt hge ⊢
        obtain ⟨hprev, -, -, hrun, -⟩ | ⟨hrun, -⟩ := hcases
        · rcases Nat.lt_succ_iff_lt_or_eq.1 hlt with hk | rfl
          · rw [hprev]
            exact hs.pending framed ha k hk (by omega)
          · exact hp
        · simp only [hrun] at hge
          omega
      flushed := fun hdone => by
        obtain ⟨-, rfl, -⟩ | ⟨hrun, -⟩ := hcases
        · simp [hstatus] at hdone
        · exact BitVec.eq_of_toNat_eq hrun
      idx := fun _ _ => hidx
      outpos := by
        obtain ⟨-, -, -, hrun, hbytes⟩ | ⟨hrun, hbytes⟩ := hcases
        · simp only [hrun, hbytes, List.length_nil]; omega
        · simp only [hrun]; omega
      header := by simp
      noSizeMismatch := ⟨by cases last <;> simp [hstatus], hs.noSizeMismatch.2⟩ }

/-! ### Every step -/

/-- Settles O45: each effect a step can have keeps the invariant. -/
theorem stepKeepsInv : Obligations.StepKeepsInv := by
  intro s t hs h
  obtain ⟨-, k, info, hk, rfl⟩ | ⟨-, w, ht, c, cs, hl, rfl⟩ | ⟨-, -, rfl⟩ | ⟨-, -, i, -, hfits, rfl⟩ | ⟨-, rfl⟩ |
    ⟨framed, he, rfl⟩ | ⟨-, rfl⟩ := step_effects h
  · exact inv_raise_decoder info hs hk
  · exact inv_headerParsed w ht hs hl
  · exact inv_passStartDec _ _ hs (Memory.wf_window _ _ hs.buffers.stream)
  · exact inv_retire _ _ hs hfits
  · exact inv_buildHeaderStep hs
  · exact inv_encodePixelStep hs he
  · exact inv_appendMarkerStep hs

end Sys2Proof.Machine
end

section
/-! SUPPORT. Power-on and pass start (R40, R41), and what a step leaves alone: `PREV` is not read by a literal or an index (R21), the
other side's registers are neither read nor written (R20, R65), and the host's inputs (R29, R33, R60) and the `STATUS` of a pass
that has ended (R26, R270) are not written. -/

namespace Sys2Proof.Machine

/-! ### Power-on and pass start -/

/-- Settles O43: with no operation in progress the step is the fault. -/
theorem powerOnIdle : Obligations.PowerOnIdle := ⟨rfl, rfl, rfl⟩

/-- R40, R213: a decoder pass start writes the decoder's registers and the operation in progress. -/
theorem passStartDec_eq (s : State) : passStartDec s =
    { s with dec := freshDecoder s.fmt s.expected, activity := if s.expected = 0 then .idle else .decodeChunks } := by
  simp only [passStartDec, decoderActivity_decoderStatus, eq_comm]

/-- Settles O44: the registers are those of `freshEncoder` and `freshDecoder`, and nothing else is written. -/
theorem passStartValues : Obligations.PassStartValues := by
  refine ⟨fun framed s t ht => ?_, fun s t ht => ?_⟩
  · subst ht
    exact ⟨Cache.get_zero, rfl, rfl, rfl, rfl, rfl, rfl, rfl⟩
  · rw [passStartDec_eq] at ht
    subst ht
    exact ⟨Cache.get_zero, rfl, rfl, rfl, rfl, by simp only [freshDecoder, decoderStatus_eq, eq_comm], rfl⟩

/-! ### `PREV` under a complete chunk -/

/-- R208: the end of a chunk overwrites `PREV`, and a complete chunk reads it through its pixel only. -/
theorem runChunk_ignores_prev {length : Nat} {s : State} (n : Nat) (px q : Pixel) (h : s.dec.pos + length ≤ s.len) :
    runChunk length n px { s with dec := { s.dec with prev := q } } = runChunk length n px s := by
  rw [runChunk_of_fits h]
  exact runChunk_of_fits h

/-- Settles O21: the pixel of a literal is its operands, and that of an index is in the cache. -/
theorem rgbaAndIndexIgnorePrev : Obligations.RgbaAndIndexIgnorePrev := fun _ q =>
  ⟨fun _ _ _ _ h => congrArg Host.Outcome.next (runChunk_ignores_prev 1 _ q h),
    fun _ h => congrArg Host.Outcome.next (runChunk_ignores_prev 1 _ q h)⟩

/-! ### The other side

A step of one side commutes with overwriting what belongs to the other: so it does not read it, and, overwriting it with what is
there already, it does not write it. -/

/-- The state with other encoder registers and other bytes in `ENCOUT`. -/
def State.withEncoder (e : EncoderState) (encout : Memory) (s : State) : State := { s with enc := e, encout := encout }

/-- The state with other decoder registers and other pixels in `PIXOUT`. -/
def State.withDecoder (d : DecoderState) (pixout : PixelMemory) (s : State) : State := { s with dec := d, pixout := pixout }

/-- An operation that reads and writes nothing of the encoder's. -/
def DecoderSide (op : State → Host.Outcome State Fault Refusal) (s : State) : Prop :=
  ∀ e encout, op (s.withEncoder e encout) = onNext (State.withEncoder e encout) (op s)

/-- An operation that reads and writes nothing of the decoder's. -/
def EncoderSide (op : State → Host.Outcome State Fault Refusal) (s : State) : Prop :=
  ∀ d pixout, op (s.withDecoder d pixout) = onNext (State.withDecoder d pixout) (op s)

theorem runChunk_withEncoder (length n : Nat) (px : Pixel) (s : State) (e : EncoderState) (encout : Memory) :
    runChunk length n px (s.withEncoder e encout) = (runChunk length n px s).withEncoder e encout := by
  unfold runChunk
  rw [apply_ite (State.withEncoder e encout)]
  rfl

theorem exec_decoderSide (i : Instr) (s : State) : DecoderSide (exec i) s := by
  intro e encout
  by_cases hc : i.site = .chunk
  · rw [exec_chunk i _ hc, exec_chunk i s hc]
    exact congrArg Host.Outcome.next (runChunk_withEncoder _ _ _ s e encout)
  · cases i with
    | hdr w h c cs =>
      simp only [exec, execHdr]
      split <;> rfl
    | endMarker =>
      simp only [exec, execEndMarker]
      rw [apply_ite (onNext (State.withEncoder e encout))]
      rfl
    | _ => exact absurd rfl hc

theorem runFetched_decoderSide (f : Fetched) (s : State) : DecoderSide (runFetched f) s := by
  intro e encout
  cases f with
  | run i => exact exec_decoderSide i s e encout
  | traps k info => rfl

/-- R20: a step of `decode` or of a decoder pass. -/
theorem step_decoderSide {s : State}
    (ha : s.activity = .parseHeader ∨ s.activity = .checkMarker ∨ s.activity = .decodeChunks) :
    DecoderSide step s := by
  intro e encout
  have ha' : (s.withEncoder e encout).activity = s.activity := rfl
  obtain ha | ha | ha := ha <;> rw [ha] at ha' <;> simp only [step, ha, ha']
  · exact runFetched_decoderSide (fetchHeader s) s e encout
  · exact runFetched_decoderSide (fetchMarker s) s e encout
  · rw [apply_ite (onNext (State.withEncoder e encout)), ← runFetched_decoderSide (fetchChunk s) s e encout]
    rfl

theorem buildHeaderStep_withDecoder (s : State) (d : DecoderState) (pixout : PixelMemory) :
    buildHeaderStep (s.withDecoder d pixout) = (buildHeaderStep s).withDecoder d pixout := by
  unfold buildHeaderStep
  simp only [State.withDecoder]
  split <;> rfl

theorem encodePixelStep_withDecoder (framed : Bool) (s : State) (d : DecoderState) (pixout : PixelMemory) :
    encodePixelStep framed (s.withDecoder d pixout) = (encodePixelStep framed s).withDecoder d pixout := by
  simp only [encodePixelStep, encStep_eq]
  rfl

theorem encoderStep_encoderSide (framed : Bool) (s : State) : EncoderSide (encoderStep framed) s := by
  intro d pixout
  unfold encoderStep
  rw [encodePixelStep_withDecoder, apply_ite (onNext _), apply_ite (onNext _)]
  rfl

/-- R20: a step of `encode` or of an encoder pass. -/
theorem step_encoderSide {s : State} {framed : Bool}
    (ha : s.activity = .buildHeader ∨ s.activity = .encodePixels framed ∨ s.activity = .appendMarker) :
    EncoderSide step s := by
  intro d pixout
  have ha' : (s.withDecoder d pixout).activity = s.activity := rfl
  obtain ha | ha | ha := ha <;> rw [ha] at ha' <;> simp only [step, ha, ha']
  · rw [buildHeaderStep_withDecoder]
    rfl
  · exact encoderStep_encoderSide framed s d pixout
  · rfl

theorem DecoderSide.frame {op : State → Host.Outcome State Fault Refusal} {s t : State} (h : DecoderSide op s)
    (ht : op s = .next t) : t.enc = s.enc ∧ t.encout = s.encout := by
  have hop := h s.enc s.encout
  rw [show s.withEncoder s.enc s.encout = s from rfl, ht] at hop
  have hst := outcome_next_inj hop
  exact ⟨(congrArg State.enc hst :), (congrArg State.encout hst :)⟩

theorem EncoderSide.frame {op : State → Host.Outcome State Fault Refusal} {s t : State} (h : EncoderSide op s)
    (ht : op s = .next t) : t.dec = s.dec ∧ t.pixout = s.pixout := by
  have hop := h s.dec s.pixout
  rw [show s.withDecoder s.dec s.pixout = s from rfl, ht] at hop
  have hst := outcome_next_inj hop
  exact ⟨(congrArg State.dec hst :), (congrArg State.pixout hst :)⟩

theorem onNext_congr {g g' : State → State} {o : Host.Outcome State Fault Refusal} (h : ∀ t, o = .next t → g t = g' t) :
    onNext g o = onNext g' o := by
  cases o with
  | next t => exact congrArg Host.Outcome.next (h t rfl)
  | fault r => rfl
  | refused r => rfl

/-- Settles O49: a step commutes with overwriting the other side's registers, and does not write it. -/
theorem instancesIsolated : Obligations.InstancesIsolated := by
  refine ⟨fun s e ha => ?_, fun s d framed ha => ?_⟩
  · have hside := step_decoderSide ha
    refine ⟨(hside e s.encout).trans (onNext_congr fun t ht => ?_), fun t ht => hside.frame ht⟩
    rw [State.withEncoder, ← (hside.frame ht).2]
  · have hside := step_encoderSide ha
    refine ⟨(hside d s.pixout).trans (onNext_congr fun t ht => ?_), fun t ht => hside.frame ht⟩
    rw [State.withDecoder, ← (hside.frame ht).2]

/-! ### The host's inputs -/

theorem buildHeaderStep_frame (s : State) :
    (buildHeaderStep s).fmt = s.fmt ∧ (buildHeaderStep s).pixin = s.pixin ∧ (buildHeaderStep s).npix = s.npix ∧
    (buildHeaderStep s).lastAt = s.lastAt ∧ (buildHeaderStep s).width = s.width ∧ (buildHeaderStep s).height = s.height ∧
    (buildHeaderStep s).channels = s.channels ∧ (buildHeaderStep s).colorspace = s.colorspace := by
  obtain ⟨d, -, h⟩ | ⟨-, h⟩ := buildHeaderStep_cases s <;> rw [h] <;> exact ⟨rfl, rfl, rfl, rfl, rfl, rfl, rfl, rfl⟩

theorem encodePixelStep_frame (framed : Bool) (s : State) : SameButEncoder s (encodePixelStep framed s) := by
  rw [encodePixelStep_record rfl rfl]
  exact ⟨rfl, rfl, ⟨rfl, rfl, rfl, rfl⟩, ⟨rfl, rfl, rfl, rfl, rfl⟩, ⟨rfl, rfl⟩, ⟨rfl, rfl⟩⟩

/-- Settles O48: no effect of a step writes them. -/
theorem inputsNeverWritten : Obligations.InputsNeverWritten := by
  intro s t h
  obtain ⟨-, k, info, -, rfl⟩ | ⟨ha, w, ht, c, cs, -, rfl⟩ | ⟨ha, -, rfl⟩ | ⟨-, -, i, -, -, rfl⟩ | ⟨ha, rfl⟩ |
    ⟨framed, ⟨ha, -⟩, rfl⟩ | ⟨ha, rfl⟩ := step_effects h
  · simp
  · simp [ha]
  · simp [ha]
  · simp
  · simp [ha, buildHeaderStep_frame s]
  · have hf := encodePixelStep_frame framed s
    simp [ha, hf.fmt, hf.pixels, hf.control, hf.header]
  · simp [ha, appendMarkerStep]

/-! ### The `STATUS` of an ended pass -/

theorem ne_running_of_ended {st : Status} (h : st = .done ∨ ∃ k, st = .fault k) : st ≠ .running := by
  rintro rfl
  simp at h

/-- R26: which steps write the decoder's registers. -/
theorem step_dec_cases {s t : State} (h : step s = .next t) :
    s.activity = .parseHeader ∨ s.activity = .checkMarker ∨ s.dec.status = .running ∨ t.dec = s.dec := by
  obtain ⟨ha | ha | ⟨-, hr⟩, -⟩ | ⟨ha, -⟩ | ⟨ha, -⟩ | ⟨-, hr, -⟩ | ⟨ha, -⟩ | ⟨framed, -, rfl⟩ | ⟨-, rfl⟩ := step_effects h
  · exact .inl ha
  · exact .inr (.inl ha)
  · exact .inr (.inr (.inl hr))
  · exact .inl ha
  · exact .inr (.inl ha)
  · exact .inr (.inr (.inl hr))
  · exact .inr (.inr (.inr ((step_encoderSide (framed := false) (.inl ha)).frame h).1))
  · exact .inr (.inr (.inr (encodePixelStep_frame framed s).dec))
  · exact .inr (.inr (.inr rfl))

/-- R26: which steps write the encoder's registers. -/
theorem step_enc_cases {s t : State} (h : step s = .next t) :
    s.activity = .buildHeader ∨ s.enc.status = .running ∨ t.enc = s.enc := by
  obtain ⟨-, k, info, -, rfl⟩ | ⟨-, w, ht, c, cs, -, rfl⟩ | ⟨-, -, rfl⟩ | ⟨-, -, i, -, -, rfl⟩ | ⟨ha, -⟩ |
    ⟨framed, ⟨-, hr, -⟩, -⟩ | ⟨-, rfl⟩ := step_effects h
  · exact .inr (.inr rfl)
  · exact .inr (.inr rfl)
  · exact .inr (.inr rfl)
  · exact .inr (.inr rfl)
  · exact .inl ha
  · exact .inr (.inl hr)
  · exact .inr (.inr rfl)

/-- Settles O52: outside a new call, a side's registers are written only while its pass is `Running`. -/
theorem endedPassStays : Obligations.EndedPassStays := by
  refine fun s t h => ⟨fun hended hne => ?_, fun hended hne => ?_⟩
  · obtain ha | ha | hr | hdec := step_dec_cases h
    · exact .inl ha
    · exact .inr ha
    · exact absurd hr (ne_running_of_ended hended)
    · exact absurd (congrArg DecoderState.status hdec) hne
  · obtain ha | hr | henc := step_enc_cases h
    · exact ha
    · exact absurd hr (ne_running_of_ended hended)
    · exact absurd (congrArg EncoderState.status henc) hne

end Sys2Proof.Machine
end

section
/-! SUPPORT. What a decoder step reads of `CHUNKS` (R59, R201, R212): a chunk is decoded from its own bytes, whatever
follows them, and executing it reads no buffer. -/

namespace Sys2Proof.Machine

/-! ### The bytes of a chunk -/

theorem chunkKind_length_bounds (f : Format) (b : Byte) :
    1 ≤ (chunkKind f b).length ∧ (chunkKind f b).length ≤ 5 := by
  cases chunkKind f b <;> decide

/-- R88: with all the bytes of its kind there, a chunk is decoded from them alone. -/
theorem decode_chunk_append {f : Format} {b : Byte} {bs : List Byte} (h : bs.length + 1 = (chunkKind f b).length) :
    ∃ i, ∀ rest, decode f .chunk (b :: (bs ++ rest)) = .ok (i, rest) := by
  simp only [decode, decodeChunk]
  revert h
  cases chunkKind f b <;> intro h <;> replace h := Nat.succ.inj h
  case rgb =>
    obtain ⟨r, g, bl, rfl⟩ := List.length_eq_three.1 h
    exact ⟨_, fun _ => rfl⟩
  case rgba =>
    obtain ⟨r, g, bl, a, rfl⟩ := List.length_eq_four.1 h
    exact ⟨_, fun _ => rfl⟩
  case luma =>
    obtain ⟨c, rfl⟩ := List.length_eq_one_iff.1 h
    exact ⟨_, fun _ => rfl⟩
  all_goals
    obtain rfl := List.length_eq_zero_iff.1 h
    exact ⟨_, fun _ => rfl⟩

/-- R201, R212: the step at a complete chunk fetches one instruction from every `CHUNKS` that holds the chunk's bytes. -/
theorem fetchChunk_of_complete {s : State} {n : Nat} (hn : n = (chunkKind s.fmt (Memory.read s.chunks s.dec.pos)).length)
    (hfits : s.dec.pos + n ≤ s.len) :
    ∃ i : Instr, i.site = .chunk ∧ ∀ m : Memory,
      (∀ k, k < n → Memory.read m (s.dec.pos + k) = Memory.read s.chunks (s.dec.pos + k)) →
      fetchChunk { s with chunks := m } = .run i := by
  obtain ⟨hpos, hle⟩ := chunkKind_length_bounds s.fmt (Memory.read s.chunks s.dec.pos)
  obtain ⟨n, rfl⟩ := Nat.exists_eq_add_one_of_ne_zero (n := n) (by omega)
  obtain ⟨extra, hextra⟩ : ∃ extra, min 5 (s.len - s.dec.pos) = n + 1 + extra := Nat.exists_eq_add_of_le (by omega)
  obtain ⟨i, hdecode⟩ := decode_chunk_append (f := s.fmt) (b := Memory.read s.chunks s.dec.pos)
    (bs := Memory.range s.chunks (s.dec.pos + 1) n) (by rw [← hn, Memory.length_range])
  refine ⟨i, decode_site (hdecode []), fun m hm => ?_⟩
  have hbytes := (Memory.range_congr m s.chunks s.dec.pos (n + 1) hm).trans (Memory.range_succ s.chunks s.dec.pos n)
  simp only [fetchChunk, hextra, Memory.range_append, hbytes, List.cons_append, hdecode]

/-! ### A step that executes a chunk -/

theorem runChunk_withChunks (length n : Nat) (px : Pixel) (s : State) (m : Memory) :
    runChunk length n px { s with chunks := m } = { runChunk length n px s with chunks := m } := by
  unfold runChunk
  split <;> rfl

/-- R212: the pixel of a chunk is in its operands, `PREV` and `CACHE`. -/
theorem exec_chunk_withChunks {i : Instr} (s : State) (m : Memory) (hi : i.site = .chunk) :
    exec i { s with chunks := m } = onNext (fun t => { t with chunks := m }) (exec i s) := by
  rw [exec_chunk i _ hi, exec_chunk i s hi]
  exact congrArg Host.Outcome.next (runChunk_withChunks _ _ _ s m)

theorem step_of_fetchChunk {s : State} {i : Instr} (hs : DecoderEnabled s) (hf : fetchChunk s = .run i) :
    step s = exec i s := by
  obtain ⟨ha, hr, -⟩ := hs
  simp only [step, ha, hr, if_true, hf, runFetched]

/-- Settles O26: both contents of `CHUNKS` give the same instruction, and executing it does not read them. -/
theorem chunkReadsOnlyItsBytes : Obligations.ChunkReadsOnlyItsBytes := by
  intro s m hs hfits hm
  obtain ⟨i, hi, hfetch⟩ := fetchChunk_of_complete rfl hfits
  rw [step_of_fetchChunk hs (hfetch s.chunks fun _ _ => rfl), step_of_fetchChunk (s := { s with chunks := m }) hs (hfetch m hm)]
  exact exec_chunk_withChunks s m hi

end Sys2Proof.Machine
end

section
/-! SUPPORT. The encoding (R81 to R92): the biased fields, the decoder undoing the encoder and the encoder the decoder, a
chunk's length from its first byte, and the chunks the encoder never selects (R95). -/

namespace Sys2Proof

/-! ### Biased fields (R91) -/

/-- R91: a value in the range of its biased field is read back from the field's bits. -/
theorem unbias_ofInt {n : Nat} {x k : Int} (hlow : 0 ≤ x + k) (hhigh : x + k < 2 ^ n) :
    ((BitVec.ofInt n (x + k)).toNat : Int) - k = x := by
  rw [BitVec.toNat_ofInt, Int.toNat_of_nonneg (Int.emod_nonneg _ (by positivity)), Nat.cast_pow, Nat.cast_ofNat,
    Int.emod_eq_of_lt hlow hhigh, add_sub_cancel_right]

/-- R91: what a biased field reads as is spelled by the field's bits. -/
theorem ofInt_unbias {n : Nat} (v : BitVec n) (k : Int) : BitVec.ofInt n ((v.toNat : Int) - k + k) = v := by
  rw [sub_add_cancel, BitVec.ofInt_natCast, BitVec.ofNat_toNat, BitVec.setWidth_eq]

theorem byte_of_nibbles : ∀ b : Byte, bits b 4 4 ++ bits b 0 4 = b := by decide

theorem wellFormed_diff_iff (dr dg db : Int) : (Instr.diff dr dg db).wellFormed = true ↔
    (-2 ≤ dr ∧ dr ≤ 1) ∧ (-2 ≤ dg ∧ dg ≤ 1) ∧ (-2 ≤ db ∧ db ≤ 1) := by
  simp [Instr.wellFormed, and_assoc]

theorem wellFormed_luma_iff (dg drDg dbDg : Int) : (Instr.luma dg drDg dbDg).wellFormed = true ↔
    (-32 ≤ dg ∧ dg ≤ 31) ∧ (-8 ≤ drDg ∧ drDg ≤ 7) ∧ (-8 ≤ dbDg ∧ dbDg ≤ 7) := by
  simp [Instr.wellFormed, and_assoc]

theorem wellFormed_run_iff (count : Nat) : (Instr.run count).wellFormed = true ↔ 1 ≤ count ∧ count ≤ 62 := by
  simp [Instr.wellFormed]

/-! ### The decoder undoes the encoder -/

theorem decodeChunk_encode_diff (f : Format) {dr dg db : Int} (rest : List Byte)
    (h : (Instr.diff dr dg db).wellFormed = true) :
    decodeChunk f (encode f (.diff dr dg db) ++ rest) = .ok (.diff dr dg db, rest) := by
  obtain ⟨hr, hg, hb⟩ := (wellFormed_diff_iff dr dg db).1 h
  have field : ∀ {d : Int}, -2 ≤ d ∧ d ≤ 1 → ((BitVec.ofInt 2 (d + 2)).toNat : Int) - 2 = d :=
    fun hd => unbias_ofInt (by omega) (by omega)
  simp only [encode, List.cons_append, List.nil_append, decodeChunk, chunkKind, dispatch_diff, bits_pairs, field hr,
    field hg, field hb]

theorem decodeChunk_encode_luma (f : Format) {dg drDg dbDg : Int} (rest : List Byte)
    (h : (Instr.luma dg drDg dbDg).wellFormed = true) :
    decodeChunk f (encode f (.luma dg drDg dbDg) ++ rest) = .ok (.luma dg drDg dbDg, rest) := by
  obtain ⟨hg, hr, hb⟩ := (wellFormed_luma_iff dg drDg dbDg).1 h
  have green : ((BitVec.ofInt 6 (dg + 32)).toNat : Int) - 32 = dg := unbias_ofInt (by omega) (by omega)
  have nibble : ∀ {d : Int}, -8 ≤ d ∧ d ≤ 7 → ((BitVec.ofInt 4 (d + 8)).toNat : Int) - 8 = d :=
    fun hd => unbias_ofInt (by omega) (by omega)
  simp only [encode, List.cons_append, List.nil_append, decodeChunk, chunkKind, dispatch_luma, bits_low6, bits_nibbles,
    green, nibble hr, nibble hb]

theorem decodeChunk_encode_run (f : Format) {count : Nat} (rest : List Byte) (h : (Instr.run count).wellFormed = true) :
    decodeChunk f (encode f (.run count) ++ rest) = .ok (.run count, rest) := by
  obtain ⟨hlow, hhigh⟩ := (wellFormed_run_iff count).1 h
  have stored : (BitVec.ofNat 6 (count - 1)).toNat = count - 1 :=
    (BitVec.toNat_ofNat ..).trans (Nat.mod_eq_of_lt (by omega))
  have hkind : chunkKind f (tagRun ++ BitVec.ofNat 6 (count - 1)) = .run :=
    dispatch_run f.tags f.fullTags _ (by omega)
  simp only [encode, List.cons_append, List.nil_append, decodeChunk, hkind, bits_low6, stored, Nat.sub_add_cancel hlow]

theorem decodeHeader_encode_hdr (f : Format) (w h : BitVec 32) (c cs : Byte) (rest : List Byte) :
    decodeHeader f (encode f (.hdr w h c cs) ++ rest) = .ok (.hdr w h c cs, rest) := by
  simp [encode, be32, decodeHeader, unbe32_be32]

/-- Settles O1, by the instruction: its first byte dispatches to its kind, and each field is read back. -/
theorem decodeOfEncode : Obligations.DecodeOfEncode := by
  intro f i rest h
  cases i with
  | rgb r g b => simp [decode, Instr.site, encode, decodeChunk, chunkKind, dispatch_rgb]
  | rgba r g b a => simp [decode, Instr.site, encode, decodeChunk, chunkKind, dispatch_rgba]
  | index slot => simp [decode, Instr.site, encode, decodeChunk, chunkKind, dispatch_index, bits_low6]
  | diff dr dg db => exact decodeChunk_encode_diff f rest h
  | luma dg drDg dbDg => exact decodeChunk_encode_luma f rest h
  | run count => exact decodeChunk_encode_run f rest h
  | hdr w ht c cs => exact decodeHeader_encode_hdr f w ht c cs rest
  | endMarker => rfl

/-! ### The encoder undoes the decoder -/

theorem encode_of_decodeChunk {f : Format} {b : Byte} {bs rest : List Byte} {i : Instr}
    (h : decodeChunk f (b :: bs) = .ok (i, rest)) : i.wellFormed = true ∧ b :: bs = encode f i ++ rest := by
  cases hk : chunkKind f b <;> simp only [decodeChunk, hk] at h
  case rgb =>
    split at h <;> cases h
    exact ⟨rfl, congrArg (· :: _) (byte_of_rgb _ _ b hk)⟩
  case rgba =>
    split at h <;> cases h
    exact ⟨rfl, congrArg (· :: _) (byte_of_rgba _ _ b hk)⟩
  case index =>
    cases h
    exact ⟨rfl, congrArg (· :: _) (byte_of_index _ _ b hk)⟩
  case diff =>
    cases h
    refine ⟨(wellFormed_diff_iff _ _ _).2 (by omega), ?_⟩
    simp only [encode, ofInt_unbias]
    exact congrArg (· :: _) (byte_of_diff _ _ b hk)
  case luma =>
    cases bs with
    | nil => cases h
    | cons c bs =>
      cases h
      refine ⟨(wellFormed_luma_iff _ _ _).2 (by omega), ?_⟩
      simp only [encode, ofInt_unbias, byte_of_nibbles]
      exact congrArg (· :: _) (byte_of_luma _ _ b hk)
  case run =>
    cases h
    obtain ⟨hb, hlt⟩ := byte_of_run _ _ b hk
    refine ⟨(wellFormed_run_iff _).2 (by omega), ?_⟩
    simp only [encode, Nat.add_sub_cancel, BitVec.ofNat_toNat, BitVec.setWidth_eq]
    exact congrArg (· :: _) hb

theorem encode_of_decodeHeader {f : Format} {bs rest : List Byte} {i : Instr}
    (h : decodeHeader f bs = .ok (i, rest)) : i.wellFormed = true ∧ bs = encode f i ++ rest := by
  unfold decodeHeader at h
  split at h
  · split at h
    next hmagic =>
      cases h
      refine ⟨rfl, ?_⟩
      rw [encode, ← hmagic, be32_unbe32, be32_unbe32, be32_unbe32]
      rfl
    next => cases h
  · cases h

theorem encode_of_decodeMarker (f : Format) {bs rest : List Byte} {i : Instr}
    (h : decodeMarker bs = .ok (i, rest)) : i.wellFormed = true ∧ bs = encode f i ++ rest := by
  unfold decodeMarker at h
  split at h
  next hmarker =>
    cases h
    exact ⟨rfl, by rw [encode, ← hmarker, List.take_append_drop]⟩
  next => cases h

/-- Settles O2, by the place: the bytes of a kind are rebuilt from the fields read from them. -/
theorem encodeOfDecode : Obligations.EncodeOfDecode := by
  intro f site bs rest i h
  refine ⟨decode_site h, ?_⟩
  cases site with
  | header => exact encode_of_decodeHeader h
  | marker => exact encode_of_decodeMarker f h
  | chunk =>
    cases bs with
    | nil => cases h
    | cons b bs => exact encode_of_decodeChunk h

/-! ### A chunk's length (R88) -/

theorem decodeChunk_truncated {f : Format} {b : Byte} {bs : List Byte}
    (h : (b :: bs).length < (chunkKind f b).length) : decodeChunk f (b :: bs) = .error .truncated := by
  rw [List.length_cons] at h
  cases hk : chunkKind f b <;> simp only [hk, ChunkKind.length] at h <;> simp only [decodeChunk, hk]
  case rgb | rgba | luma =>
    split
    · simp only [List.length_cons] at h
      omega
    · rfl
  all_goals omega

/-- Settles O3: a complete chunk is decoded from its own bytes, so it is as long as they are. -/
theorem chunkLengthFromFirstByte : Obligations.ChunkLengthFromFirstByte := by
  refine fun f b bs => ⟨decodeChunk_truncated, fun hle => ?_⟩
  obtain ⟨n, hn⟩ : ∃ n, (chunkKind f b).length = n + 1 :=
    Nat.exists_eq_add_one.2 (Machine.chunkKind_length_bounds f b).1
  have hown : (bs.take n).length + 1 = (chunkKind f b).length := by
    rw [List.length_cons] at hle
    rw [List.length_take_of_le (by omega), hn]
  obtain ⟨i, hdecode⟩ := Machine.decode_chunk_append hown
  obtain ⟨hsite, -, hbytes⟩ := encodeOfDecode f .chunk _ _ i (hdecode [])
  refine ⟨i, ?_, ?_, hsite⟩
  · simpa [hn, decode] using hdecode (bs.drop n)
  · rw [← encode_length f i, ← hown]
    simpa using congrArg List.length hbytes.symm

/-! ### Under the default constants -/

/-- Settles O4, by evaluating the dispatch at each of the 256 first bytes. -/
theorem defaultOpcodeMap : Obligations.DefaultOpcodeMap := by
  unfold Obligations.DefaultOpcodeMap
  decide

/-- Settles O5, by evaluating the decoder at the eight words. -/
theorem spelledWordsDecode : Obligations.SpelledWordsDecode := by
  unfold Obligations.SpelledWordsDecode
  decide

end Sys2Proof

namespace Sys2Proof.Machine

/-! ### Chunks never selected (R95) -/

theorem eq_of_delta_eq_zero {c e : Byte} (h : delta c e = 0) : c = e := by
  rw [← add8_delta c e, h, add8, add_zero, wrap8_toNat]

theorem pixel_eq_of_deltas {p q : Pixel} (ha : p.a = q.a) (hr : delta p.r q.r = 0) (hg : delta p.g q.g = 0)
    (hb : delta p.b q.b = 0) : p = q := by
  obtain ⟨r, g, b, a⟩ := p
  obtain ⟨r', g', b', a'⟩ := q
  rw [Pixel.mk.injEq]
  exact ⟨eq_of_delta_eq_zero hr, eq_of_delta_eq_zero hg, eq_of_delta_eq_zero hb, ha⟩

/-- Settles O41: zero deltas and an equal alpha are `PREV` itself, and deltas that fit are taken by `Diff` before `Luma`. -/
theorem neverEmitted : Obligations.NeverEmitted := by
  intro h c prev p hne
  obtain ⟨-, e⟩ | ⟨-, -, e⟩ | ⟨-, ha, -, e⟩ | ⟨-, -, hdiff, -, e⟩ | ⟨-, -, -, -, e⟩ := newPixelChunk_cases h c prev p
  · simp [e]
  · simp [e]
  · simp only [e]
    refine ⟨fun hzero => ?_, nofun⟩
    obtain ⟨hr, hg, hb⟩ := Instr.diff.inj hzero
    exact hne (pixel_eq_of_deltas ha hr hg hb)
  · simp only [e]
    refine ⟨nofun, fun dg drDg dbDg hluma hfits => ?_⟩
    obtain ⟨rfl, rfl, rfl⟩ := Instr.luma.inj hluma
    simp only [sub_add_cancel] at hfits
    have hfit : diffFits (delta p.r prev.r) (delta p.g prev.g) (delta p.b prev.b) = true :=
      (diffFits_iff ..).2 (by omega)
    exact absurd hfit (by rw [hdiff]; decide)
  · simp [e]

end Sys2Proof.Machine
end

section
/-! SUPPORT. The header codec (R120 to R129): the domain check, `buildHeader` and `parseHeader` by their cases, the header as an
instruction, and that a chunk pass carries `CHANNELS` and `COLORSPACE` without reading them. -/

namespace Sys2Proof.Machine

/-! ### The domain check -/

theorem headerDefect_of_badChannels {c : Byte} (cs : Byte) (h3 : c ≠ 3) (h4 : c ≠ 4) :
    headerDefect c cs = some .badChannels := if_pos ⟨h3, h4⟩

theorem headerDefect_of_badColorSpace {c cs : Byte} (hc : c = 3 ∨ c = 4) (h0 : cs ≠ 0) (h1 : cs ≠ 1) :
    headerDefect c cs = some .badColorSpace := by
  rw [headerDefect, if_neg (fun ⟨h3, h4⟩ => hc.elim h3 h4), if_pos ⟨h0, h1⟩]

/-! ### buildHeader -/

theorem buildHeader_of_defect {c cs : Byte} {d : HeaderDefect} (f : Format) (w h : BitVec 32)
    (hd : headerDefect c cs = some d) : buildHeader f w h c cs = .error d := by
  simp only [buildHeader, hd]

theorem buildHeader_of_legal {c cs : Byte} (f : Format) (w h : BitVec 32) (hl : HeaderLegal c cs) :
    buildHeader f w h c cs = .ok (encode f (.hdr w h c cs)) := by
  simp only [buildHeader, (headerDefect_eq_none_iff c cs).2 hl]

/-- Settles O9: `buildHeader` by the outcome of the domain check. -/
theorem buildHeaderBytes : Obligations.BuildHeaderBytes := fun f w h _ cs =>
  ⟨fun h3 h4 => buildHeader_of_defect f w h (headerDefect_of_badChannels cs h3 h4),
    fun hc h0 h1 => buildHeader_of_defect f w h (headerDefect_of_badColorSpace hc h0 h1),
    buildHeader_of_legal f w h⟩

/-! ### The header's bytes -/

/-- A magic number is compared as an integer or as its bytes. -/
theorem unbe32_eq_iff (b0 b1 b2 b3 : Byte) (v : BitVec 32) : unbe32 b0 b1 b2 b3 = v ↔ [b0, b1, b2, b3] = be32 v := by
  constructor
  · rintro rfl
    exact (be32_unbe32 b0 b1 b2 b3).symm
  · intro hbytes
    obtain ⟨rfl, rfl, rfl, rfl, -⟩ := by simpa only [be32, List.cons.injEq] using hbytes
    exact unbe32_be32 v

theorem take_eq_map_getD {n : Nat} {bs : List Byte} (h : n ≤ bs.length) :
    bs.take n = (List.range n).map (bs.getD · 0) :=
  List.ext_getElem (by simpa using h) fun k hk _ => by
    have hlt : k < bs.length := hk.trans_le (List.length_take_le' n bs)
    rw [List.getElem_take, List.getElem_map, List.getElem_range, List.getD_eq_getElem bs 0 hlt]

theorem decodeHeader_of_short (f : Format) {bs : List Byte} (h : bs.length < 14) :
    decodeHeader f bs = .error .shortHeader := by
  unfold decodeHeader
  split
  · simp only [List.length_cons] at h
    omega
  · rfl

/-- R122: with fourteen bytes there, only the magic decides whether they are a header. -/
theorem decodeHeader_of_long (f : Format) {bs : List Byte} (h : 14 ≤ bs.length) :
    decodeHeader f bs =
      if bs.take 4 = be32 f.magic then
        .ok (.hdr (unbe32 (bs.getD 4 0) (bs.getD 5 0) (bs.getD 6 0) (bs.getD 7 0))
          (unbe32 (bs.getD 8 0) (bs.getD 9 0) (bs.getD 10 0) (bs.getD 11 0)) (bs.getD 12 0) (bs.getD 13 0), bs.drop 14)
      else .error .badMagic := by
  have hbytes : bs = (List.range 14).map (bs.getD · 0) ++ bs.drop 14 := by
    rw [← take_eq_map_getD h, List.take_append_drop]
  unfold decodeHeader
  split
  · simp only [unbe32_eq_iff]
    rfl
  next hno => exact absurd hbytes (hno _ _ _ _ _ _ _ _ _ _ _ _ _ _ _)

/-! ### parseHeader -/

theorem parseHeader_of_short (f : Format) {bs : List Byte} (h : bs.length < 14) :
    parseHeader f bs = .error .shortHeader := by
  simp only [parseHeader, decodeHeader_of_short f h]

theorem parseHeader_of_badMagic {f : Format} {bs : List Byte} (h : decodeHeader f bs = .error .badMagic) :
    parseHeader f bs = .error .badMagic := by
  simp only [parseHeader, h]

/-- R120: what follows the magic is the domain check. -/
theorem parseHeader_of_hdr {f : Format} {bs rest : List Byte} {w h : BitVec 32} {c cs : Byte}
    (hd : decodeHeader f bs = .ok (.hdr w h c cs, rest)) :
    parseHeader f bs = (headerDefect c cs).elim (.ok (w, h, c, cs)) .error := by
  simp only [parseHeader, hd]
  cases headerDefect c cs <;> rfl

/-- Settles O7: the decoder makes the first two checks, `headerDefect` the other two. -/
theorem parseHeaderChecks : Obligations.ParseHeaderChecks := by
  intro f bs
  by_cases hlen : bs.length < 14
  · rw [if_pos hlen, parseHeader_of_short f hlen]
  have hdecode := decodeHeader_of_long f (Nat.not_lt.1 hlen)
  rw [if_neg hlen]
  by_cases hmagic : bs.take 4 = be32 f.magic
  · rw [if_pos hmagic] at hdecode
    rw [if_neg (not_not.2 hmagic), parseHeader_of_hdr hdecode, headerDefect]
    split_ifs <;> rfl
  · rw [if_neg hmagic] at hdecode
    rw [if_pos hmagic, parseHeader_of_badMagic hdecode]

/-- R128: each byte the four checks and the fields read is among the first fourteen. -/
theorem parseHeader_append (f : Format) {bs : List Byte} (tail : List Byte) (h : 14 ≤ bs.length) :
    parseHeader f (bs ++ tail) = parseHeader f bs := by
  have byte : ∀ k, k < 14 → (bs ++ tail).getD k 0 = bs.getD k 0 := fun k hk => List.getD_append _ _ _ _ (by omega)
  have magic : (bs ++ tail).take 4 = bs.take 4 := List.take_append_of_le_length (by omega)
  have long : ¬ bs.length < 14 := Nat.not_lt.2 h
  have long' : ¬ (bs ++ tail).length < 14 := by simp; omega
  rw [parseHeaderChecks, parseHeaderChecks, if_neg long, if_neg long', magic]
  simp only [byte, Nat.reduceLT]

/-- Settles O8: either tail may be cut off. -/
theorem parseHeaderReadsFourteenBytes : Obligations.ParseHeaderReadsFourteenBytes := fun f _ tail tail' h =>
  (parseHeader_append f tail h.ge).trans (parseHeader_append f tail' h.ge).symm

/-- R120: `parseHeader` accepts the headers the decoder reads whose fields are in their domains. -/
theorem parseHeader_eq_ok_iff {f : Format} {bs : List Byte} {w h : BitVec 32} {c cs : Byte} :
    parseHeader f bs = .ok (w, h, c, cs) ↔
      HeaderLegal c cs ∧ ∃ rest, decodeHeader f bs = .ok (.hdr w h c cs, rest) := by
  constructor
  · intro hp
    unfold parseHeader at hp
    split at hp
    next hd =>
      split at hp <;> cases hp
      next hnone => exact ⟨(headerDefect_eq_none_iff c cs).1 hnone, _, hd⟩
    next => cases hp
    next => cases hp
  · rintro ⟨hl, rest, hd⟩
    rw [parseHeader_of_hdr hd, (headerDefect_eq_none_iff c cs).2 hl]
    rfl

/-- Settles O6: the decoder and the encoder of the header undo each other, and both functions make the same domain check. -/
theorem headerRoundTrip : Obligations.HeaderRoundTrip := by
  refine ⟨fun f w h c cs hl => ?_, fun f bs w h c cs hp => ?_⟩
  · have hdecode := decodeHeader_encode_hdr f w h c cs []
    rw [List.append_nil] at hdecode
    exact ⟨_, buildHeader_of_legal f w h hl, encode_length f _, parseHeader_eq_ok_iff.2 ⟨hl, [], hdecode⟩⟩
  · obtain ⟨hl, rest, hdecode⟩ := parseHeader_eq_ok_iff.1 hp
    obtain ⟨-, rfl⟩ := encode_of_decodeHeader hdecode
    have hlen : (encode f (.hdr w h c cs)).length = 14 := encode_length f _
    rw [buildHeader_of_legal f w h hl, List.take_left' hlen]

/-! ### The header executed -/

theorem exec_hdr_of_legal {c cs : Byte} (w h : BitVec 32) (s : State) (hl : HeaderLegal c cs) :
    exec (.hdr w h c cs) s =
      .next { s with width := w, height := h, channels := c, colorspace := cs, activity := .checkMarker } := by
  simp only [exec, execHdr, (headerDefect_eq_none_iff c cs).2 hl]

theorem exec_hdr_of_defect {c cs : Byte} {d : HeaderDefect} (w h : BitVec 32) (s : State)
    (hd : headerDefect c cs = some d) :
    exec (.hdr w h c cs) s = .next (raise .decoder .malformedHeader (.header d) s) := by
  simp only [exec, execHdr, hd]

/-- Settles O29: the domain check passes. -/
theorem headerWritesRegisters : Obligations.HeaderWritesRegisters := fun w h _ _ s hl => exec_hdr_of_legal w h s hl

/-- Settles O30: the domain check fails, and the whole effect is that of `raise`. -/
theorem headerRaisesMalformed : Obligations.HeaderRaisesMalformed := fun w h _ cs s =>
  ⟨fun h3 h4 => ⟨_, exec_hdr_of_defect w h s (headerDefect_of_badChannels cs h3 h4), raise_decoder_effect _ _ s⟩,
    fun hc h0 h1 => ⟨_, exec_hdr_of_defect w h s (headerDefect_of_badColorSpace hc h0 h1), raise_decoder_effect _ _ s⟩⟩

/-! ### CHANNELS and COLORSPACE in a chunk pass (R129) -/

/-- The state with other values in `CHANNELS` and `COLORSPACE`. -/
def State.withMetadata (c cs : Byte) (s : State) : State := { s with channels := c, colorspace := cs }

theorem runChunk_withMetadata (length n : Nat) (px : Pixel) (s : State) (c cs : Byte) :
    runChunk length n px (s.withMetadata c cs) = (runChunk length n px s).withMetadata c cs := by
  unfold runChunk
  rw [apply_ite (State.withMetadata c cs)]
  rfl

/-- R27: of what is executed in `decode`, a header alone writes the two registers, and at the place of a chunk none is read. -/
theorem runFetched_fetchChunk_withMetadata (s : State) (c cs : Byte) :
    runFetched (fetchChunk s) (s.withMetadata c cs) = onNext (State.withMetadata c cs) (runFetched (fetchChunk s) s) := by
  cases hf : fetchChunk s with
  | run i =>
    obtain ⟨rest, hdecode⟩ := fetchChunk_decodes hf
    have hsite : i.site = .chunk := decode_site hdecode
    simp only [runFetched, exec_chunk i _ hsite]
    exact congrArg Host.Outcome.next (runChunk_withMetadata _ _ _ s c cs)
  | traps k info => rfl

theorem encodePixelStep_withMetadata (framed : Bool) (s : State) (c cs : Byte) :
    encodePixelStep framed (s.withMetadata c cs) = (encodePixelStep framed s).withMetadata c cs := by
  rw [encodePixelStep_record rfl rfl, encodePixelStep_record rfl rfl, encStep_eq, encStep_eq]
  rfl

theorem encoderStep_withMetadata (framed : Bool) (s : State) (c cs : Byte) :
    encoderStep framed (s.withMetadata c cs) = onNext (State.withMetadata c cs) (encoderStep framed s) := by
  unfold encoderStep
  rw [encodePixelStep_withMetadata, apply_ite (onNext _), apply_ite (onNext _)]
  rfl

/-- Settles O50: a chunk's step and a pixel's step both commute with overwriting the two registers. -/
theorem metadataNotRead : Obligations.MetadataNotRead := by
  intro s c cs framed ha
  change step (s.withMetadata c cs) = onNext (State.withMetadata c cs) (step s)
  have ha' : (s.withMetadata c cs).activity = s.activity := rfl
  obtain ha | ha := ha <;> rw [ha] at ha' <;> simp only [step, ha, ha']
  · rw [apply_ite (onNext (State.withMetadata c cs)), ← runFetched_fetchChunk_withMetadata]
    rfl
  · exact encoderStep_withMetadata framed s c cs

end Sys2Proof.Machine
end

section
/-! SUPPORT. The pixel cache (R140 to R150): the default hash in bytes, a write as one equation, what an `Index` chunk and an
encoder step leave in the cache. -/

namespace Sys2Proof.Machine

/-! ### The default hash (R142) -/

theorem publicHash_toNat (p : Pixel) :
    (publicHash p).toNat = (3 * p.r.toNat + 5 * p.g.toNat + 7 * p.b.toNat + 11 * p.a.toNat) % 64 := BitVec.toNat_ofNat _ 6

/-- R142: 64 divides 256, so the sum may wrap at 256 before its low six bits are taken. -/
theorem publicHash_eq_bits (p : Pixel) : publicHash p = bits (3 * p.r + 5 * p.g + 7 * p.b + 11 * p.a) 0 6 := by
  obtain ⟨hlow, -⟩ := bits_toNat (3 * p.r + 5 * p.g + 7 * p.b + 11 * p.a)
  apply BitVec.eq_of_toNat_eq
  rw [publicHash_toNat, hlow]
  bv_omega

/-- Settles O11: the sum modulo 64 does not change when it is first taken modulo 256. -/
theorem defaultHashWraps : Obligations.DefaultHashWraps := fun p => ⟨publicHash_toNat p, publicHash_eq_bits p⟩

/-! ### A write (R144) -/

/-- R144: exactly one slot is written, that of the pixel's own hash. -/
theorem Cache.get_put (h : HashFn) (c : Cache) (p : Pixel) (k : BitVec 6) :
    Cache.get (Cache.put h c p) k = if k = HashFn.slot h p then p else Cache.get c k := by
  split
  next hk => rw [hk, Cache.get_put_self]
  next hk => exact Cache.get_put_of_ne h c p k hk

/-- Settles O12: a write by `Cache.get_put`, a fresh cache by `Cache.get_zero`. -/
theorem cachePutGet : Obligations.CachePutGet := ⟨Cache.get_put, Cache.get_zero⟩

/-- R144: writing a pixel its slot already holds changes nothing. -/
theorem Cache.get_put_of_held {h : HashFn} {c : Cache} {p : Pixel} (hp : Cache.get c (HashFn.slot h p) = p)
    (k : BitVec 6) : Cache.get (Cache.put h c p) k = Cache.get c k := by
  rw [Cache.get_put]
  split
  next hk => rw [hk, hp]
  next => rfl

/-! ### The write of an `Index` chunk (R150) -/

/-- R208, R210: a chunk writes its pixel to the cache, or raises and writes nothing there. -/
theorem runChunk_dec_cache (length n : Nat) (px : Pixel) (s : State) :
    (runChunk length n px s).dec.cache = s.dec.cache ∨
      (runChunk length n px s).dec.cache = Cache.put s.fmt.hash s.dec.cache px := by
  unfold runChunk
  split
  · exact .inl rfl
  · exact .inr rfl

/-- R146, R150: putting back what a slot holds changes the cache only when that is a `ZERO` outside `ZERO`'s own slot. -/
theorem Cache.get_put_get {h : HashFn} {c : Cache} (hc : SlotDiscipline h c) (slot : BitVec 6) :
    (∀ k, Cache.get (Cache.put h c (Cache.get c slot)) k = Cache.get c k) ∨
    (Cache.get c slot = Pixel.zero ∧ HashFn.slot h Pixel.zero ≠ slot ∧
      ∀ k, Cache.get (Cache.put h c (Cache.get c slot)) k =
        if k = HashFn.slot h Pixel.zero then Pixel.zero else Cache.get c k) := by
  by_cases hown : HashFn.slot h (Cache.get c slot) = slot
  · exact .inl (Cache.get_put_of_held (congrArg (Cache.get c) hown))
  · have hzero : Cache.get c slot = Pixel.zero := (hc slot).resolve_right hown
    rw [hzero] at hown ⊢
    exact .inr ⟨rfl, hown, Cache.get_put h c Pixel.zero⟩

/-- Settles O22: a complete `Index` puts back the pixel it read, and a truncated one writes no slot. -/
theorem indexKeepsCache : Obligations.IndexKeepsCache := by
  intro slot s t hs h
  obtain rfl := outcome_next_inj h
  obtain hcache | hcache := runChunk_dec_cache 1 1 (Cache.get s.dec.cache slot) s <;> rw [hcache]
  · exact .inl fun _ => rfl
  · exact Cache.get_put_get hs slot

/-! ### Recency in the encoder (R147) -/

@[simp] theorem encStep_fmt (p : Pixel) (last : Bool) (s : State) : (encStep p last s).fmt = s.fmt := by
  rw [encStep_eq]

@[simp] theorem encStep_enc_prev (p : Pixel) (last : Bool) (s : State) : (encStep p last s).enc.prev = p := by
  rw [encStep_eq]

@[simp] theorem encStep_enc_cache (p : Pixel) (last : Bool) (s : State) :
    (encStep p last s).enc.cache = cacheAfter p s := by
  rw [encStep_eq]

/-- R165, R166: a hit finds the new pixel in its slot, and a miss puts it there. -/
theorem get_cacheAfter_self {p : Pixel} {s : State} (hp : p ≠ s.enc.prev) :
    Cache.get (cacheAfter p s) (HashFn.slot s.fmt.hash p) = p := by
  rw [cacheAfter, if_neg hp, get_missWrite_self]

/-- R162: a run step writes neither `PREV` nor the cache. -/
theorem encoderRecent_encStep_prev (last : Bool) (s : State) :
    EncoderRecent (encStep s.enc.prev last s) ↔ EncoderRecent s := by
  simp [EncoderRecent, cacheAfter]

/-- Settles O40: a run step keeps what recency speaks of, and any other leaves its pixel in the pixel's slot. -/
theorem encoderCacheRecency : Obligations.EncoderCacheRecency := by
  intro p last s hs
  by_cases hp : p = s.enc.prev
  · subst hp
    exact ⟨(encoderRecent_encStep_prev last s).2 hs, fun hne => absurd rfl hne⟩
  · have hnew : Cache.get (encStep p last s).enc.cache (HashFn.slot s.fmt.hash p) = p := by
      rw [encStep_enc_cache, get_cacheAfter_self hp]
    exact ⟨.inl (by simpa using hnew), fun _ => hnew⟩

end Sys2Proof.Machine
end

section
/-! SUPPORT. The encoder step (R161 to R177): the bytes of a chunk as numbers, the step by the rows of its table, how many
bytes it emits, and that the chunk it selects decodes to the pixel. -/

namespace Sys2Proof

/-! ### The bytes of a chunk as numbers (R82 to R85) -/

theorem toNat_append_eq_mul_add {n m : Nat} (x : BitVec n) (y : BitVec m) :
    (x ++ y).toNat = 2 ^ m * x.toNat + y.toNat := by
  rw [BitVec.toNat_append, ← Nat.shiftLeft_add_eq_or_of_lt y.isLt, Nat.shiftLeft_eq, mul_comm]

/-- A word is spelled by the number it reads as. -/
theorem eq_ofInt_of_toNat {n : Nat} {v : BitVec n} {x : Int} (h : (v.toNat : Int) = x) : v = BitVec.ofInt n x := by
  rw [← h, BitVec.ofInt_natCast, BitVec.ofNat_toNat, BitVec.setWidth_eq]

theorem encode_run_succ (f : Format) {n : Nat} (h : n < 64) : encode f (.run (n + 1)) = [BitVec.ofNat 8 (0xC0 + n)] := by
  rw [encode, Nat.add_sub_cancel, List.singleton_inj]
  apply BitVec.eq_of_toNat_eq
  rw [toNat_append_eq_mul_add, BitVec.toNat_ofNat, BitVec.toNat_ofNat, show tagRun.toNat = 3 from rfl]
  omega

theorem encode_index (f : Format) (slot : BitVec 6) :
    encode f (.index slot) = [BitVec.ofNat 8 (64 * f.tags.index.toNat + slot.toNat)] := by
  rw [encode, List.singleton_inj]
  apply BitVec.eq_of_toNat_eq
  rw [toNat_append_eq_mul_add, BitVec.toNat_ofNat]
  omega

theorem encode_diff (f : Format) {dr dg db : Int} (h : (Instr.diff dr dg db).wellFormed = true) :
    encode f (.diff dr dg db) =
      [BitVec.ofInt 8 (64 * f.tags.diff.toNat + 16 * (dr + 2) + 4 * (dg + 2) + (db + 2))] := by
  obtain ⟨hr, hg, hb⟩ := (wellFormed_diff_iff dr dg db).1 h
  have field : ∀ {d : Int}, -2 ≤ d ∧ d ≤ 1 → ((BitVec.ofInt 2 (d + 2)).toNat : Int) - 2 = d :=
    fun hd => unbias_ofInt (by omega) (by omega)
  have fieldR := field hr
  have fieldG := field hg
  have fieldB := field hb
  rw [encode, List.singleton_inj]
  apply eq_ofInt_of_toNat
  simp only [toNat_append_eq_mul_add]
  omega

theorem encode_luma (f : Format) {dg drDg dbDg : Int} (h : (Instr.luma dg drDg dbDg).wellFormed = true) :
    encode f (.luma dg drDg dbDg) =
      [BitVec.ofInt 8 (64 * f.tags.luma.toNat + (dg + 32)), BitVec.ofInt 8 (16 * (drDg + 8) + (dbDg + 8))] := by
  obtain ⟨hg, hr, hb⟩ := (wellFormed_luma_iff dg drDg dbDg).1 h
  have green : ((BitVec.ofInt 6 (dg + 32)).toNat : Int) - 32 = dg := unbias_ofInt (by omega) (by omega)
  have nibble : ∀ {d : Int}, -8 ≤ d ∧ d ≤ 7 → ((BitVec.ofInt 4 (d + 8)).toNat : Int) - 8 = d :=
    fun hd => unbias_ofInt (by omega) (by omega)
  have nibbleR := nibble hr
  have nibbleB := nibble hb
  rw [encode, List.cons.injEq, List.singleton_inj]
  constructor
  · apply eq_ofInt_of_toNat
    rw [toNat_append_eq_mul_add]
    omega
  · apply eq_ofInt_of_toNat
    rw [toNat_append_eq_mul_add]
    omega

end Sys2Proof

namespace Sys2Proof.Machine

/-! ### Wrapped differences (R176) -/

theorem s8_wrap8_eq {x y : Int} (hlow : -128 ≤ y) (hhigh : y ≤ 127) (hcongr : 256 ∣ y - x) : s8 (wrap8 x) = y := by
  rw [s8_wrap8, Int.bmod_eq_iff (by decide)]
  exact ⟨hlow, by omega, hcongr⟩

/-- Settles O13: outside -128 to 127 a difference of the two deltas is one period away, far from -8 to 7. -/
theorem wrappedDifferencesAgree : Obligations.WrappedDifferencesAgree := by
  intro dr dg hgLow hgHigh hrLow hrHigh
  have hwrap : s8 (wrap8 (dr - dg)) =
      if dr - dg < -128 then dr - dg + 256 else if 127 < dr - dg then dr - dg - 256 else dr - dg := by
    apply s8_wrap8_eq <;> split_ifs <;> omega
  rw [hwrap]
  split_ifs <;> omega

/-! ### The chunk a step selects, row by row (R175) -/

section
variable {h : HashFn} {c : Cache} {prev p : Pixel}

theorem newPixelChunk_of_hit (hhit : Cache.get c (HashFn.slot h p) = p) :
    newPixelChunk h c prev p = .index (HashFn.slot h p) := if_pos ((Cache.hit_iff ..).2 hhit)

theorem newPixelChunk_of_miss (hmiss : Cache.get c (HashFn.slot h p) ≠ p) :
    newPixelChunk h c prev p = deltaChunk prev p := if_neg (mt (Cache.hit_iff ..).1 hmiss)

theorem deltaChunk_of_alpha (ha : p.a ≠ prev.a) : deltaChunk prev p = .rgba p.r p.g p.b p.a := if_neg ha

theorem deltaChunk_of_same_alpha (ha : p.a = prev.a) : deltaChunk prev p =
    if diffFits (delta p.r prev.r) (delta p.g prev.g) (delta p.b prev.b) then
      .diff (delta p.r prev.r) (delta p.g prev.g) (delta p.b prev.b)
    else if lumaFits (delta p.r prev.r) (delta p.g prev.g) (delta p.b prev.b) then
      .luma (delta p.g prev.g) (delta p.r prev.r - delta p.g prev.g) (delta p.b prev.b - delta p.g prev.g)
    else .rgb p.r p.g p.b := if_pos ha

end

/-! ### The step's bytes and `RUN` (R162, R164) -/

/-- R164: the flush of a pending run before a pixel that differs from `PREV`. -/
def pendingFlush (s : State) : List Byte := if s.enc.run = 0 then [] else encode s.fmt (.run s.enc.run.toNat)

theorem pendingFlush_of_none {s : State} (h : s.enc.run = 0) : pendingFlush s = [] := if_pos h

theorem pendingFlush_of_pending {s : State} (h : s.enc.run ≠ 0) :
    pendingFlush s = [BitVec.ofNat 8 (0xC0 + (s.enc.run.toNat - 1))] := by
  have hpos : s.enc.run.toNat ≠ 0 := fun e => h (BitVec.eq_of_toNat_eq e)
  have hlt := s.enc.run.isLt
  rw [pendingFlush, if_neg h, ← encode_run_succ s.fmt (by omega), Nat.sub_one_add_one hpos]

section
variable {p : Pixel} {last : Bool} {s : State}

theorem stepBytes_of_ne (hp : p ≠ s.enc.prev) : stepBytes p last s =
    pendingFlush s ++ encode s.fmt (newPixelChunk s.fmt.hash s.enc.cache s.enc.prev p) := if_neg hp

theorem runAfter_of_ne (hp : p ≠ s.enc.prev) : runAfter p last s = 0 := if_neg hp

theorem flushes_iff (hrun : s.enc.run.toNat ≤ 61) :
    s.enc.run + 1 = 62 ∨ last = true ↔ s.enc.run.toNat + 1 = 62 ∨ last = true := by
  rw [← toNat_run_add_one hrun, ← BitVec.toNat_inj]
  rfl

theorem runStep_of_flush (hp : p = s.enc.prev) (hrun : s.enc.run.toNat ≤ 61)
    (hflush : s.enc.run.toNat + 1 = 62 ∨ last = true) :
    runAfter p last s = 0 ∧ stepBytes p last s = [BitVec.ofNat 8 (0xC0 + s.enc.run.toNat)] := by
  have hflush := (flushes_iff hrun).2 hflush
  rw [runAfter, stepBytes, if_pos hp, if_pos hp, if_pos hflush, if_pos hflush, toNat_run_add_one hrun,
    encode_run_succ s.fmt (by omega)]
  exact ⟨rfl, rfl⟩

theorem runStep_of_count (hp : p = s.enc.prev) (hrun : s.enc.run.toNat ≤ 61)
    (hcount : ¬ (s.enc.run.toNat + 1 = 62 ∨ last = true)) :
    (runAfter p last s).toNat = s.enc.run.toNat + 1 ∧ stepBytes p last s = [] := by
  have hcount := mt (flushes_iff hrun).1 hcount
  rw [runAfter, stepBytes, if_pos hp, if_pos hp, if_neg hcount, if_neg hcount]
  exact ⟨toNat_run_add_one hrun, rfl⟩

end

/-! ### The step's registers, bytes and frame (R161) -/

@[simp] theorem encStep_activity (p : Pixel) (last : Bool) (s : State) :
    (encStep p last s).activity = s.activity := by rw [encStep_eq]

@[simp] theorem encStep_npix (p : Pixel) (last : Bool) (s : State) : (encStep p last s).npix = s.npix := by
  rw [encStep_eq]

@[simp] theorem encStep_enc_run (p : Pixel) (last : Bool) (s : State) :
    (encStep p last s).enc.run = runAfter p last s := by rw [encStep_eq]

@[simp] theorem encStep_enc_idx (p : Pixel) (last : Bool) (s : State) :
    (encStep p last s).enc.idx = s.enc.idx + 1 := by rw [encStep_eq]

@[simp] theorem encStep_enc_outpos (p : Pixel) (last : Bool) (s : State) :
    (encStep p last s).enc.outpos = s.enc.outpos + (stepBytes p last s).length := by rw [encStep_eq]

@[simp] theorem encStep_enc_status (p : Pixel) (last : Bool) (s : State) :
    (encStep p last s).enc.status = if last then .done else s.enc.status := by rw [encStep_eq]

@[simp] theorem encStep_enc_errinfo (p : Pixel) (last : Bool) (s : State) :
    (encStep p last s).enc.errinfo = s.enc.errinfo := by rw [encStep_eq]

theorem encStep_frame (p : Pixel) (last : Bool) (s : State) : SameButEncoder s (encStep p last s) := by
  rw [encStep_eq]
  exact ⟨rfl, rfl, ⟨rfl, rfl, rfl, rfl⟩, ⟨rfl, rfl, rfl, rfl, rfl⟩, ⟨rfl, rfl⟩, ⟨rfl, rfl⟩⟩

/-- R14: a step appends `stepBytes` to `ENCOUT`. -/
theorem encStep_emitted (p : Pixel) (last : Bool) {s : State} (hw : Memory.wf s.encout) :
    Emitted s (encStep p last s) (stepBytes p last s) := by
  rw [encStep_eq]
  exact ⟨rfl, Memory.range_writeAll_self _ _ _ hw, fun a => Memory.read_writeAll_of_outside _ _ a _⟩

theorem get_cacheAfter_of_ne (p : Pixel) (s : State) {k : BitVec 6} (hk : k ≠ HashFn.slot s.fmt.hash p) :
    Cache.get (cacheAfter p s) k = Cache.get s.enc.cache k := by
  unfold cacheAfter
  split
  · rfl
  · exact get_missWrite_of_ne _ _ _ k hk

/-! ### The whole step (R161, R175) -/

/-- R162: the first row of the table, a pixel equal to `PREV`. -/
theorem encStep_runRow {p : Pixel} (last : Bool) {s : State} (hw : Memory.wf s.encout) (hrun : s.enc.run.toNat ≤ 61)
    (hp : p = s.enc.prev) :
    (encStep p last s).enc.cache = s.enc.cache ∧
    (s.enc.run.toNat + 1 = 62 ∨ last = true → (encStep p last s).enc.run = 0 ∧
      Emitted s (encStep p last s) [BitVec.ofNat 8 (0xC0 + s.enc.run.toNat)]) ∧
    (s.enc.run.toNat + 1 ≠ 62 → last = false → (encStep p last s).enc.run.toNat = s.enc.run.toNat + 1 ∧
      Emitted s (encStep p last s) []) := by
  have hbytes := encStep_emitted p last hw
  rw [encStep_enc_cache, encStep_enc_run]
  refine ⟨if_pos hp, fun hflush => ?_, fun hcap hlast => ?_⟩
  · obtain ⟨hafter, hemit⟩ := runStep_of_flush hp hrun hflush
    exact ⟨hafter, hemit ▸ hbytes⟩
  · obtain ⟨hafter, hemit⟩ := runStep_of_count (last := last) hp hrun (by simp [hcap, hlast])
    exact ⟨hafter, hemit ▸ hbytes⟩

/-- Settles O37: the registers by `encStep_eq`, a pixel equal to `PREV` by `encStep_runRow`, and any other by the equation of
its row of the table. -/
theorem encoderStepTable : Obligations.EncoderStepTable := by
  rintro p last s t slot dr dg db hw hrun rfl rfl rfl rfl rfl
  refine ⟨encStep_frame p last s, by simp, by simp, by simp, by simp, by simp, encStep_runRow last hw hrun, fun hp => ?_⟩
  refine ⟨by simp [runAfter_of_ne hp], fun k hk => by simp [get_cacheAfter_of_ne p s hk],
    by simp [get_cacheAfter_self hp], _, _, stepBytes_of_ne (last := last) hp ▸ encStep_emitted p last hw,
    pendingFlush_of_none, pendingFlush_of_pending, fun hhit => ?_, fun hmiss ha => ?_, fun hmiss ha => ?_⟩
  · rw [newPixelChunk_of_hit hhit, encode_index]
  · rw [newPixelChunk_of_miss hmiss, deltaChunk_of_alpha ha, encode]
  · rw [newPixelChunk_of_miss hmiss, deltaChunk_of_same_alpha ha]
    refine ⟨fun hdiff => ?_, fun hdiff => ⟨fun hluma => ?_, fun hluma => ?_⟩⟩
    · rw [if_pos ((diffFits_iff ..).2 hdiff), encode_diff _ ((diffFits_iff ..).2 hdiff)]
    · rw [if_neg (mt (diffFits_iff ..).1 hdiff), if_pos ((lumaFits_iff ..).2 hluma),
        encode_luma _ ((wellFormed_luma_iff ..).2 (by omega))]
    · rw [if_neg (mt (diffFits_iff ..).1 hdiff), if_neg (mt (lumaFits_iff ..).1 hluma), encode]

/-! ### An enabled step (R160, R174, R240) -/

theorem step_of_encoderEnabled {framed : Bool} {s : State} (h : EncoderEnabled framed s) :
    step s = .next (encodePixelStep framed s) := by
  obtain ⟨ha, hs, hidx⟩ := h
  simp [step, ha, encoderStep, hs, Nat.not_le.2 hidx]

theorem encoderActivity_bare (s : State) :
    encoderActivity false s = if s.enc.status = .done then .idle else .encodePixels false := rfl

theorem encoderActivity_framed (s : State) : encoderActivity true s =
    if s.enc.status = .done ∨ s.npix ≤ s.enc.idx then .appendMarker else .encodePixels true := by
  simp [encoderActivity, pixelsConsumed]

/-- Settles O38: an enabled step is `EncStep` with what `encoderActivity` says comes next. -/
theorem encoderStepCompletes : Obligations.EncoderStepCompletes := by
  intro framed s he
  refine ⟨_, step_of_encoderEnabled he, encodePixelStep_eq framed s, ?_, ?_, ?_⟩
  · obtain ⟨-, hs, -⟩ := he
    simp only [encodePixelStep, encStep_enc_status, hs]
    split <;> simp
  · rintro rfl
    exact encoderActivity_bare _
  · rintro rfl
    exact (encoderActivity_framed _).trans (by rw [encStep_npix, encStep_enc_idx]; rfl)

/-! ### How many bytes a step emits (R173) -/

theorem length_pendingFlush_le (s : State) : (pendingFlush s).length ≤ 1 := by
  by_cases h : s.enc.run = 0
  · simp [pendingFlush_of_none h]
  · simp [pendingFlush_of_pending h]

/-- R175: only an `RGBA`, for a miss with a new alpha, is five bytes long. -/
theorem newPixelChunk_length_eq_five {h : HashFn} {c : Cache} {prev p : Pixel}
    (hlen : (newPixelChunk h c prev p).length = 5) : p.a ≠ prev.a ∧ Cache.get c (HashFn.slot h p) ≠ p := by
  obtain ⟨-, e⟩ | ⟨hmiss, ha, -⟩ | ⟨-, -, -, e⟩ | ⟨-, -, -, -, e⟩ | ⟨-, -, -, -, e⟩ := newPixelChunk_cases h c prev p
  case inr.inl => exact ⟨ha, hmiss⟩
  all_goals simp [e, Instr.length] at hlen

/-- R162: a run step emits nothing or one flush. -/
theorem length_stepBytes_prev_le (last : Bool) (s : State) : (stepBytes s.enc.prev last s).length ≤ 1 := by
  rw [stepBytes, if_pos rfl]
  split
  · rfl
  · simp

/-- Settles O39: one byte of flush and five of chunk are the most a step emits, and both are needed for six. -/
theorem stepEmitsAtMostSix : Obligations.StepEmitsAtMostSix := by
  intro p last s
  rw [encStep_enc_outpos]
  by_cases hp : p = s.enc.prev
  · have hle := length_stepBytes_prev_le last s
    rw [hp]
    exact ⟨by omega, fun hsix => by omega⟩
  · have hflush := length_pendingFlush_le s
    have hchunk := newPixelChunk_length_le s.fmt.hash s.enc.cache s.enc.prev p
    rw [stepBytes_of_ne hp, List.length_append, encode_length]
    refine ⟨by omega, fun hsix => ⟨fun hnone => ?_, newPixelChunk_length_eq_five (by omega)⟩⟩
    rw [pendingFlush_of_none hnone, List.length_nil] at hsix
    omega

/-! ### The selected chunk decodes (R177) -/

theorem diffPixel_delta {prev p : Pixel} (ha : p.a = prev.a) :
    diffPixel prev (delta p.r prev.r) (delta p.g prev.g) (delta p.b prev.b) = p := by
  simp only [diffPixel, add8_delta, ← ha]

theorem lumaPixel_delta {prev p : Pixel} (ha : p.a = prev.a) :
    lumaPixel prev (delta p.g prev.g) (delta p.r prev.r - delta p.g prev.g) (delta p.b prev.b - delta p.g prev.g) = p := by
  simp only [lumaPixel, sub_add_cancel, add8_delta, ← ha]

/-- R177: the selected chunk is a well-formed chunk that stands for the pixel once, to a decoder with the same `PREV` and a
cache that agrees on the pixel's slot. -/
theorem newPixelChunk_stands_for {s : State} {c : Cache} {p : Pixel} {i : Instr}
    (hi : newPixelChunk s.fmt.hash c s.dec.prev p = i)
    (hc : Cache.get s.dec.cache (HashFn.slot s.fmt.hash p) = Cache.get c (HashFn.slot s.fmt.hash p)) :
    i.wellFormed = true ∧ i.site = .chunk ∧ chunkCount i = 1 ∧ chunkPixel s i = p := by
  obtain ⟨hhit, e⟩ | ⟨-, -, e⟩ | ⟨-, ha, hdiff, e⟩ | ⟨-, ha, -, hluma, e⟩ | ⟨-, ha, -, -, e⟩ :=
    newPixelChunk_cases s.fmt.hash c s.dec.prev p <;> obtain rfl := e.symm.trans hi
  · exact ⟨rfl, rfl, rfl, hc.trans hhit⟩
  · exact ⟨rfl, rfl, rfl, rfl⟩
  · exact ⟨hdiff, rfl, rfl, diffPixel_delta ha⟩
  · exact ⟨hluma, rfl, rfl, lumaPixel_delta ha⟩
  · exact ⟨rfl, rfl, rfl, by simp only [chunkPixel, rgbPixel, ← ha]⟩

/-- Settles O42: the decoder executes the selected chunk to the pixel it stands for. -/
theorem selectedChunkDecodes : Obligations.SelectedChunkDecodes := by
  intro s c p i _ hi hc hfits _ hw
  obtain ⟨hwf, hsite, hcount, hpixel⟩ := newPixelChunk_stands_for hi.symm hc
  refine ⟨hwf, hsite, _, exec_chunk i s hsite, ?_⟩
  rw [runChunk_of_fits hfits, hcount, hpixel]
  exact retire_effect _ _ _ _ hw

end Sys2Proof.Machine
end

section
/-! SUPPORT. The chunk decoder (R201 to R214): a step is the instruction its bytes decode to, the six chunks one by one, the
whole step from the bytes at `POS`, and that every step raises or makes progress, so that a pass ends. -/

namespace Sys2Proof.Machine

/-! ### The step is the decoded instruction -/

/-- R88 to R90: an instruction is decoded from its own bytes, however many of the bytes after it are there. -/
theorem decode_take {f : Format} {site : Site} {bs rest : List Byte} {i : Instr} {n : Nat}
    (h : decode f site bs = .ok (i, rest)) (hn : i.length ≤ n) : ∃ rest', decode f site (bs.take n) = .ok (i, rest') := by
  obtain ⟨rfl, hwf, rfl⟩ := encodeOfDecode f site bs rest i h
  rw [List.take_append, List.take_of_length_le (by rwa [encode_length])]
  exact ⟨_, decodeOfEncode f i _ hwf⟩

theorem length_le_of_site_header {i : Instr} (h : i.site = .header) : i.length ≤ 14 := by
  cases i with
  | hdr => exact le_rfl
  | _ => cases h

theorem length_le_of_site_chunk {i : Instr} (h : i.site = .chunk) : i.length ≤ 5 := by
  cases i with
  | hdr | endMarker => cases h
  | _ => simp [Instr.length]

theorem fetchHeader_of_decode {s : State} {i : Instr} {rest : List Byte}
    (h : decode s.fmt .header (Memory.range s.stream 0 s.slen) = .ok (i, rest)) : fetchHeader s = .run i := by
  obtain ⟨rest', hdecode⟩ := decode_take h (length_le_of_site_header (decode_site h))
  rw [Memory.take_range] at hdecode
  simp only [fetchHeader, hdecode]

theorem fetchMarker_of_decode {s : State} {i : Instr} {rest : List Byte} (hroom : 22 ≤ s.slen)
    (h : decode s.fmt .marker (Memory.range s.stream (s.slen - 8) 8) = .ok (i, rest)) : fetchMarker s = .run i := by
  simp only [fetchMarker, if_neg (Nat.not_lt.2 hroom), h]

theorem fetchChunk_of_decode {s : State} {i : Instr} {rest : List Byte}
    (h : decode s.fmt .chunk (Memory.range s.chunks s.dec.pos (s.len - s.dec.pos)) = .ok (i, rest)) :
    fetchChunk s = .run i := by
  obtain ⟨rest', hdecode⟩ := decode_take h (length_le_of_site_chunk (decode_site h))
  rw [Memory.take_range] at hdecode
  simp only [fetchChunk, hdecode]

/-- Settles O23: the bytes a fetch leaves out lie after the instruction. -/
theorem stepRunsDecoded : Obligations.StepRunsDecoded := by
  refine ⟨fun s i rest ha h => ?_, fun s i rest ha hroom h => ?_, fun s i rest ha hr h => ?_⟩
  · simp only [step, ha, fetchHeader_of_decode h, runFetched]
  · simp only [step, ha, fetchMarker_of_decode hroom h, runFetched]
  · simp only [step, ha, hr, if_true, fetchChunk_of_decode h, runFetched]

/-! ### One chunk (R202 to R211) -/

section
variable (i : Instr) {s : State}

theorem exec_chunk_raises (hi : i.site = .chunk) (hshort : s.len < s.dec.pos + i.length) :
    ∃ t, exec i s = .next t ∧ DecoderRaised s t .truncatedStream (.truncated s.dec.pos s.dec.outcnt) :=
  ⟨_, exec_chunk i s hi, runChunk_of_short hshort ▸ raise_decoder_effect _ _ s⟩

theorem exec_chunk_of_fits (hi : i.site = .chunk) (hfits : s.dec.pos + i.length ≤ s.len) :
    exec i s = .next (retire i.length (chunkCount i) (chunkPixel s i) s) := by
  rw [exec_chunk i s hi, runChunk_of_fits hfits]

theorem exec_chunk_retires (hi : i.site = .chunk) (hfits : s.dec.pos + i.length ≤ s.len)
    (hw : PixelMemory.wf s.pixout) :
    ∃ t, exec i s = .next t ∧ ChunkRetired s t i.length (chunkCount i) (chunkPixel s i) :=
  ⟨_, exec_chunk_of_fits i hi hfits, retire_effect _ _ _ s hw⟩

end

section
variable {f : Format} {b : Byte}

theorem decodeChunk_of_index (rest : List Byte) (hk : chunkKind f b = .index) :
    decodeChunk f (b :: rest) = .ok (.index (bits b 0 6), rest) := by simp only [decodeChunk, hk]

theorem decodeChunk_of_diff (rest : List Byte) (hk : chunkKind f b = .diff) : decodeChunk f (b :: rest) =
    .ok (.diff ((bits b 4 2).toNat - 2) ((bits b 2 2).toNat - 2) ((bits b 0 2).toNat - 2), rest) := by
  simp only [decodeChunk, hk]

theorem decodeChunk_of_luma (c : Byte) (rest : List Byte) (hk : chunkKind f b = .luma) : decodeChunk f (b :: c :: rest) =
    .ok (.luma ((bits b 0 6).toNat - 32) ((bits c 4 4).toNat - 8) ((bits c 0 4).toNat - 8), rest) := by
  simp only [decodeChunk, hk]

theorem decodeChunk_of_run (rest : List Byte) (hk : chunkKind f b = .run) :
    decodeChunk f (b :: rest) = .ok (.run ((bits b 0 6).toNat + 1), rest) := by simp only [decodeChunk, hk]

end

theorem bits_low6_eq_ofNat (b : Byte) : bits b 0 6 = BitVec.ofNat 6 b.toNat := by
  apply BitVec.eq_of_toNat_eq
  rw [(bits_toNat b).1, BitVec.toNat_ofNat]

/-- R11: `add8` is addition modulo 256. -/
theorem toNat_add8 (c : Byte) (d : Int) : ((add8 c d).toNat : Int) = (c.toNat + d) % 256 := by
  rw [add8, wrap8, BitVec.toNat_ofInt, Int.toNat_of_nonneg (Int.emod_nonneg _ (by decide))]
  rfl

/-- Settles O15: the encoding is `decodeOfEncode`'s, the effect that of any chunk. -/
theorem rgbChunk : Obligations.RgbChunk := fun r g b _ =>
  ⟨fun f rest => decodeOfEncode f (.rgb r g b) rest rfl, exec_chunk_raises (.rgb r g b) rfl,
    fun h _ hw => exec_chunk_retires (.rgb r g b) rfl h hw⟩

/-- Settles O16: the encoding is `decodeOfEncode`'s, the effect that of any chunk. -/
theorem rgbaChunk : Obligations.RgbaChunk := fun r g b a _ =>
  ⟨fun f rest => decodeOfEncode f (.rgba r g b a) rest rfl, exec_chunk_raises (.rgba r g b a) rfl,
    fun h _ hw => exec_chunk_retires (.rgba r g b a) rfl h hw⟩

/-- Settles O17: the low six bits are the byte modulo 64, the effect that of any chunk. -/
theorem indexChunk : Obligations.IndexChunk := fun slot _ =>
  ⟨fun _ b rest hk => bits_low6_eq_ofNat b ▸ decodeChunk_of_index rest hk, exec_chunk_raises (.index slot) rfl,
    fun h _ hw => exec_chunk_retires (.index slot) rfl h hw⟩

/-- Settles O18: the fields are digits of the byte, and each channel of the pixel is an `add8`. -/
theorem diffChunk : Obligations.DiffChunk := by
  refine fun dr dg db s => ⟨fun f b rest hk => ?_, exec_chunk_raises (.diff dr dg db) rfl, fun h _ hw => ?_⟩
  · obtain ⟨-, hr, hg, hb, -⟩ := bits_toNat b
    rw [decodeChunk_of_diff rest hk, hr, hg, hb]
  · obtain ⟨t, hexec, hretired⟩ := exec_chunk_retires (.diff dr dg db) rfl h hw
    exact ⟨t, _, hexec, hretired, toNat_add8 _ _, toNat_add8 _ _, toNat_add8 _ _, rfl⟩

/-- Settles O19: the fields are digits of the two bytes, and each channel of the pixel is an `add8`. -/
theorem lumaChunk : Obligations.LumaChunk := by
  refine fun dg drDg dbDg s => ⟨fun f b c rest hk => ?_, exec_chunk_raises (.luma dg drDg dbDg) rfl, fun h _ hw => ?_⟩
  · obtain ⟨hgreen, -⟩ := bits_toNat b
    obtain ⟨-, -, -, -, hred, hblue⟩ := bits_toNat c
    rw [decodeChunk_of_luma c rest hk, hgreen, hred, hblue]
  · obtain ⟨t, hexec, hretired⟩ := exec_chunk_retires (.luma dg drDg dbDg) rfl h hw
    exact ⟨t, _, hexec, hretired, toNat_add8 _ _, toNat_add8 _ _, toNat_add8 _ _, rfl⟩

/-- Settles O20: a count above 62 would be a full-byte tag, and the effect is that of any chunk. -/
theorem runChunkRetires : Obligations.RunChunk := by
  refine fun count s => ⟨fun f b rest hk => ?_, exec_chunk_raises (.run count) rfl,
    fun h _ hw => exec_chunk_retires (.run count) rfl h hw⟩
  obtain ⟨-, hlt⟩ := byte_of_run f.tags f.fullTags b hk
  obtain ⟨hlow, -⟩ := bits_toNat b
  rw [decodeChunk_of_run rest hk, hlow]
  exact ⟨rfl, by omega⟩

/-! ### The bytes at `POS` (R201, R210) -/

/-- R201: the chunk of kind `k` whose bytes are those from `a` up. -/
def instrAt (k : ChunkKind) (m : Memory) (a : Nat) : Instr :=
  let b := Memory.read m a
  let c := Memory.read m (a + 1)
  match k with
  | .rgb => .rgb c (Memory.read m (a + 2)) (Memory.read m (a + 3))
  | .rgba => .rgba c (Memory.read m (a + 2)) (Memory.read m (a + 3)) (Memory.read m (a + 4))
  | .index => .index (bits b 0 6)
  | .diff => .diff ((bits b 4 2).toNat - 2) ((bits b 2 2).toNat - 2) ((bits b 0 2).toNat - 2)
  | .luma => .luma ((bits b 0 6).toNat - 32) ((bits c 4 4).toNat - 8) ((bits c 0 4).toNat - 8)
  | .run => .run ((bits b 0 6).toNat + 1)

theorem length_instrAt (k : ChunkKind) (m : Memory) (a : Nat) : (instrAt k m a).length = k.length := by cases k <;> rfl

/-- R88: with all its bytes there, the chunk decodes, and the bytes after it are left. -/
theorem decode_instrAt {f : Format} {m : Memory} {a : Nat} {k : ChunkKind} (hk : chunkKind f (Memory.read m a) = k)
    (extra : Nat) : decode f .chunk (Memory.range m a (k.length + extra)) =
      .ok (instrAt k m a, Memory.range m (a + k.length) extra) := by
  rw [Memory.range_append]
  cases k <;>
    simp only [ChunkKind.length, Memory.range_succ, List.cons_append, decode, decodeChunk, hk] <;> rfl

theorem fetchChunk_of_short {s : State} (hshort : s.len ≤ s.dec.pos ∨
    s.len < s.dec.pos + (chunkKind s.fmt (Memory.read s.chunks s.dec.pos)).length) :
    fetchChunk s = .traps .truncatedStream (.truncated s.dec.pos s.dec.outcnt) := by
  have hdecode : decode s.fmt .chunk (Memory.range s.chunks s.dec.pos (min 5 (s.len - s.dec.pos))) = .error .truncated := by
    cases hn : min 5 (s.len - s.dec.pos) with
    | zero => rfl
    | succ n =>
      rw [Memory.range_succ]
      refine decodeChunk_truncated ?_
      have hle := (chunkKind_length_bounds s.fmt (Memory.read s.chunks s.dec.pos)).2
      rw [List.length_cons, Memory.length_range]
      omega
  simp only [fetchChunk, hdecode]

theorem step_of_short {s : State} (hs : DecoderEnabled s) (hshort : s.len ≤ s.dec.pos ∨
    s.len < s.dec.pos + (chunkKind s.fmt (Memory.read s.chunks s.dec.pos)).length) :
    step s = .next (raiseTruncated s) := by
  obtain ⟨ha, hr, -⟩ := hs
  simp only [step, ha, hr, if_true, fetchChunk_of_short hshort, runFetched, raiseTruncated]

/-- Settles O24: the only effect is that of `raise`, after which `STATUS` is not `Done`. -/
theorem stepRaisesTruncated : Obligations.StepRaisesTruncated := fun s hs hshort =>
  ⟨_, step_of_short hs hshort, raise_decoder_effect _ _ s, by simp [decoderOutput, raiseTruncated]⟩

/-- R201: at a complete chunk, the step retires it. -/
theorem step_of_complete {s : State} {k : ChunkKind} {i : Instr} (hs : DecoderEnabled s)
    (hk : chunkKind s.fmt (Memory.read s.chunks s.dec.pos) = k) (hi : instrAt k s.chunks s.dec.pos = i)
    (hfits : s.dec.pos + k.length ≤ s.len) :
    i.wellFormed = true ∧ i.site = .chunk ∧ s.dec.pos + i.length ≤ s.len ∧
      step s = .next (retire i.length (chunkCount i) (chunkPixel s i) s) := by
  subst hi
  obtain ⟨ha, hr, -⟩ := hs
  obtain ⟨extra, hextra⟩ : ∃ extra, s.len - s.dec.pos = k.length + extra := Nat.exists_eq_add_of_le (by omega)
  have hdecode := decode_instrAt hk extra
  obtain ⟨hsite, hwf, -⟩ := encodeOfDecode _ _ _ _ _ hdecode
  have hlen : s.dec.pos + (instrAt k s.chunks s.dec.pos).length ≤ s.len := by rwa [length_instrAt]
  obtain ⟨-, -, hstep⟩ := stepRunsDecoded
  refine ⟨hwf, hsite, hlen, ?_⟩
  rw [hstep s _ _ ha hr (hextra ▸ hdecode), exec_chunk_of_fits _ hsite hlen]

/-! ### The branches of the dispatch (R81) -/

section
variable {f : Format} {b : Byte}

theorem chunkKind_of_index (hrgb : b ≠ f.fullTags.rgb) (hrgba : b ≠ f.fullTags.rgba)
    (h : bits b 6 2 = f.tags.index) : chunkKind f b = .index := by
  simp only [chunkKind, dispatch, if_neg hrgb, if_neg hrgba, if_pos h]

theorem chunkKind_of_diff (hrgb : b ≠ f.fullTags.rgb) (hrgba : b ≠ f.fullTags.rgba)
    (h : bits b 6 2 = f.tags.diff) : chunkKind f b = .diff := by
  obtain ⟨hindex, -⟩ := tags_distinct f.tags
  simp only [chunkKind, dispatch, if_neg hrgb, if_neg hrgba, h, if_neg hindex.symm, if_true]

theorem chunkKind_of_luma (hrgb : b ≠ f.fullTags.rgb) (hrgba : b ≠ f.fullTags.rgba)
    (h : bits b 6 2 = f.tags.luma) : chunkKind f b = .luma := by
  obtain ⟨-, hindex, hdiff, -⟩ := tags_distinct f.tags
  simp only [chunkKind, dispatch, if_neg hrgb, if_neg hrgba, h, if_neg hindex.symm, if_neg hdiff.symm, if_true]

theorem chunkKind_of_run (hrgb : b ≠ f.fullTags.rgb) (hrgba : b ≠ f.fullTags.rgba)
    (h : bits b 6 2 = tagRun) : chunkKind f b = .run := by
  obtain ⟨-, -, -, hindex, hdiff, hluma⟩ := tags_distinct f.tags
  simp only [chunkKind, dispatch, if_neg hrgb, if_neg hrgba, h, if_neg hindex.symm, if_neg hdiff.symm,
    if_neg hluma.symm]

end

/-- R201, R208: the step retires the instruction of the kind its first byte selects. -/
theorem step_retires {s : State} (hs : DecoderEnabled s) (hw : PixelMemory.wf s.pixout)
    (hfits : s.dec.pos + (chunkKind s.fmt (Memory.read s.chunks s.dec.pos)).length ≤ s.len) :
    ∃ t, step s = .next t ∧ ∀ k, chunkKind s.fmt (Memory.read s.chunks s.dec.pos) = k →
      ChunkRetired s t (instrAt k s.chunks s.dec.pos).length (chunkCount (instrAt k s.chunks s.dec.pos))
        (chunkPixel s (instrAt k s.chunks s.dec.pos)) := by
  obtain ⟨-, -, -, hstep⟩ := step_of_complete hs rfl rfl hfits
  refine ⟨_, hstep, ?_⟩
  rintro _ rfl
  exact retire_effect _ _ _ s hw

/-- Settles O25: each condition on the first byte gives its kind, and the step retires the instruction of that kind. -/
theorem decoderStep : Obligations.DecoderStep := by
  rintro s b hs hw rfl hfits
  obtain ⟨t, hstep, hretired⟩ := step_retires hs hw hfits
  refine ⟨t, hstep, fun h => ?_, fun h => ?_, fun hrgb hrgba h => ?_, fun hrgb hrgba h => ?_, fun hrgb hrgba h => ?_,
    fun hrgb hrgba h => ?_⟩
  · exact hretired .rgb ((congrArg _ h).trans (dispatch_rgb _ _))
  · exact hretired .rgba ((congrArg _ h).trans (dispatch_rgba _ _))
  · exact hretired .index (chunkKind_of_index hrgb hrgba h)
  · exact hretired .diff (chunkKind_of_diff hrgb hrgba h)
  · rintro c rfl dg rfl
    exact hretired .luma (chunkKind_of_luma hrgb hrgba h)
  · exact hretired .run (chunkKind_of_run hrgb hrgba h)

/-! ### Progress (R214) -/

theorem instr_length_pos (i : Instr) : 0 < i.length := by cases i <;> simp [Instr.length]

theorem chunkCount_pos {i : Instr} (hwf : i.wellFormed = true) (hi : i.site = .chunk) : 0 < chunkCount i := by
  cases i with
  | run count => exact ((wellFormed_run_iff count).1 hwf).1
  | hdr | endMarker => cases hi
  | _ => exact Nat.one_pos

theorem step_raises_or_retires {s : State} (hs : DecoderEnabled s) :
    step s = .next (raiseTruncated s) ∨
      ∃ i : Instr, i.wellFormed = true ∧ i.site = .chunk ∧ s.dec.pos + i.length ≤ s.len ∧
        step s = .next (retire i.length (chunkCount i) (chunkPixel s i) s) := by
  rcases Nat.lt_or_ge s.len (s.dec.pos + (chunkKind s.fmt (Memory.read s.chunks s.dec.pos)).length) with h | h
  · exact .inl (step_of_short hs (.inr h))
  · exact .inr ⟨_, step_of_complete hs rfl rfl h⟩

/-- What a retired chunk moves on: `POS` and `OUTCNT` rise within `LEN` and `EXPECTED`, and the pass is over or goes on. -/
theorem retire_progress {s : State} {length n : Nat} (px : Pixel) (hs : DecoderEnabled s) (hlength : 0 < length)
    (hfits : s.dec.pos + length ≤ s.len) (hn : 0 < n) :
    s.dec.pos < (retire length n px s).dec.pos ∧ (retire length n px s).dec.pos ≤ s.len ∧
      s.dec.outcnt < (retire length n px s).dec.outcnt ∧
      (retire length n px s).dec.outcnt ≤ s.expected ∧
      (DecoderEnabled (retire length n px s) ∨
        (retire length n px s).dec.status = .done ∧ (retire length n px s).dec.outcnt = s.expected) := by
  obtain ⟨-, -, howes⟩ := hs
  have hle := outcnt_add_owed_le n howes.le
  have hpos : 0 < owed n s := by unfold owed; omega
  refine ⟨Nat.lt_add_of_pos_right hlength, hfits, Nat.lt_add_of_pos_right hpos, hle, ?_⟩
  rcases hle.lt_or_eq with hlt | heq
  · exact .inl ⟨(decoderActivity_decoderStatus _ _).trans (if_neg hlt.ne), decoderStatus_eq_running_iff.2 hlt.ne, hlt⟩
  · exact .inr ⟨decoderStatus_eq_done_iff.2 heq, heq⟩

/-- Settles O27: the step raises, or it retires a chunk of one byte or more that stands for one pixel or more. -/
theorem decoderStepProgress : Obligations.DecoderStepProgress := by
  intro s hs
  obtain hstep | ⟨i, hwf, hsite, hfits, hstep⟩ := step_raises_or_retires hs
  · exact ⟨_, hstep, .inl ⟨rfl, rfl, rfl⟩⟩
  · obtain ⟨hpos, hin, hcount, hle, hnext⟩ :=
      retire_progress (chunkPixel s i) hs (instr_length_pos i) hfits (chunkCount_pos hwf hsite)
    refine ⟨_, hstep, .inr ⟨hpos, hin, hcount, hle, hnext.imp_left ?_⟩⟩
    rintro ⟨-, hrunning, howes⟩
    exact ⟨hrunning, howes⟩

/-- Settles O28, by induction on the pixels owed: a step ends the pass, or leaves fewer of them and fewer bytes. -/
theorem decoderPassEnds : Obligations.DecoderPassEnds := by
  intro s hs hin
  induction howed : s.expected - s.dec.outcnt using Nat.strong_induction_on generalizing s with
  | _ n ih =>
    have ⟨_, _, howes⟩ := hs
    obtain hstep | ⟨i, hwf, hsite, hfits, hstep⟩ := step_raises_or_retires hs
    · exact ⟨1, _, by omega, by omega, core_run_succ 0 s _ hstep, .inr rfl⟩
    · obtain ⟨hpos, hin', hcount, hle, hnext⟩ :=
        retire_progress (chunkPixel s i) hs (instr_length_pos i) hfits (chunkCount_pos hwf hsite)
      obtain henabled | hdone := hnext
      · have hlt : s.expected - (retire i.length (chunkCount i) (chunkPixel s i) s).dec.outcnt < n := by omega
        obtain ⟨k, t, hbytes, howed', hrun, hend⟩ := ih _ hlt _ henabled hin' rfl
        rw [retire_len] at hbytes
        exact ⟨k + 1, t, by omega, by omega, (core_run_succ k s _ hstep).trans hrun, hend⟩
      · exact ⟨1, _, by omega, by omega, core_run_succ 0 s _ hstep, .inl hdone⟩

end Sys2Proof.Machine
end

section
/-! SUPPORT. The chunk round trip (R148, R177, R216, R217): a decoder pass over what an encoder pass has emitted mirrors it. Each
of the encoder's three operations (count a run, flush it, encode a new pixel) is matched by at most one decoder step, and the two
caches stay equal but for the slot of a leading run of `INIT_PREV`. -/

namespace Sys2Proof.Machine

/-! ### The two caches (R147, R217) -/

/-- R217: the decoder's cache is the encoder's, but that the decoder may hold `INIT_PREV` in its slot where the encoder still
holds `ZERO`. -/
def CachesAgree (f : Format) (dec enc : Cache) : Prop :=
  ∀ slot, Cache.get dec slot = Cache.get enc slot ∨
    (slot = HashFn.slot f.hash f.initPrev ∧ Cache.get enc slot = Pixel.zero ∧ Cache.get dec slot = f.initPrev)

/-- R208: the decoder puts the pixel `p` into its cache; the encoder leaves or writes no other slot than that of `p`, where it
holds `p`, or `ZERO` if `p` is the first `PREV`. -/
theorem CachesAgree.put {f : Format} {dec enc enc' : Cache} {p : Pixel} (h : CachesAgree f dec enc)
    (hself : Cache.get enc' (HashFn.slot f.hash p) = p ∨
      (p = f.initPrev ∧ Cache.get enc' (HashFn.slot f.hash f.initPrev) = Pixel.zero))
    (hother : ∀ k, k ≠ HashFn.slot f.hash p → Cache.get enc' k = Cache.get enc k) :
    CachesAgree f (Cache.put f.hash dec p) enc' := by
  intro k
  by_cases hk : k = HashFn.slot f.hash p
  · subst hk
    rw [Cache.get_put_self]
    obtain hp | ⟨rfl, hzero⟩ := hself
    · exact .inl hp.symm
    · exact .inr ⟨rfl, hzero, rfl⟩
  · rw [Cache.get_put_of_ne _ _ _ _ hk, hother k hk]
    exact h k

/-- R148: a pixel the encoder finds in its cache is in the decoder's too. Only the exceptional slot could differ, and there the
pixel found would be `ZERO`, with the hash of `INIT_PREV`. -/
theorem CachesAgree.hit {f : Format} {dec enc : Cache} {p : Pixel} (h : CachesAgree f dec enc) (hadm : HashAdmissible f)
    (hp : Cache.get enc (HashFn.slot f.hash p) = p) : Cache.get dec (HashFn.slot f.hash p) = p := by
  obtain hsame | ⟨hslot, hzero, hinit⟩ := h (HashFn.slot f.hash p)
  · exact hsame.trans hp
  · obtain rfl : p = Pixel.zero := hp.symm.trans hzero
    obtain hadm | hadm := hadm
    · exact hinit.trans hadm
    · exact absurd hslot.symm hadm

theorem chunkPixel_deltaChunk_withCache (s : State) (c : Cache) (prev p : Pixel) :
    chunkPixel { s with dec := { s.dec with cache := c } } (deltaChunk prev p) = chunkPixel s (deltaChunk prev p) := by
  unfold deltaChunk
  simp only
  split_ifs <;> rfl

/-- R177: as `newPixelChunk_stands_for`, where the decoder's cache need only hold the pixel if the encoder's does. -/
theorem newPixelChunk_stands_for_of_hit {u : State} {c : Cache} {p : Pixel}
    (hc : Cache.get c (HashFn.slot u.fmt.hash p) = p → Cache.get u.dec.cache (HashFn.slot u.fmt.hash p) = p) :
    (newPixelChunk u.fmt.hash c u.dec.prev p).wellFormed = true ∧
      (newPixelChunk u.fmt.hash c u.dec.prev p).site = .chunk ∧
      chunkCount (newPixelChunk u.fmt.hash c u.dec.prev p) = 1 ∧
      chunkPixel u (newPixelChunk u.fmt.hash c u.dec.prev p) = p := by
  obtain ⟨hwf, hsite, hcount, hpixel⟩ :=
    newPixelChunk_stands_for (s := { u with dec := { u.dec with cache := c } }) (p := p) (c := c) rfl rfl
  refine ⟨hwf, hsite, hcount, ?_⟩
  by_cases hhit : Cache.get c (HashFn.slot u.fmt.hash p) = p
  · rw [newPixelChunk_of_hit hhit]
    exact hc hhit
  · simp only [newPixelChunk_of_miss hhit] at hpixel ⊢
    rwa [chunkPixel_deltaChunk_withCache] at hpixel

/-! ### A decoder pass on its way -/

/-- The bytes of `CHUNKS` a decoder pass has still to read. -/
def bytesLeft (u : State) : List Byte := Memory.range u.chunks u.dec.pos (u.len - u.dec.pos)

/-- The pixels a decoder pass has stored. -/
def pixelsOut (u : State) : List Pixel := PixelMemory.range u.pixout 0 u.dec.outcnt

theorem length_pixelsOut (u : State) : (pixelsOut u).length = u.dec.outcnt := Store.length_range ..

/-- The decoder pass that started in `d` has come to `u`, and has raised nothing. -/
structure DecoderPassAt (d u : State) : Prop where
  reached : ∃ k, Host.Core.run Sys2Proof.core k d = .next u
  fmt : u.fmt = d.fmt
  expected : u.expected = d.expected
  len : u.len = d.len
  pos : u.dec.pos ≤ u.len
  status : u.dec.status = decoderStatus u.dec.outcnt u.expected
  activity : u.activity = decoderActivity u.dec.status
  pixout : PixelMemory.wf u.pixout

/-- R40: a decoder pass has just started in `d`, and its pixels can be stored. -/
structure DecoderStarted (d : State) : Prop where
  dec : d.dec = freshDecoder d.fmt d.expected
  activity : d.activity = decoderActivity d.dec.status
  pixout : PixelMemory.wf d.pixout

theorem decoderStarted_hostStartDecoder {d : State} (bs : List Byte) (n : Nat) (hw : PixelMemory.wf d.pixout) :
    DecoderStarted (hostStartDecoder bs n d) := ⟨rfl, rfl, hw⟩

theorem DecoderStarted.passAt {d : State} (h : DecoderStarted d) : DecoderPassAt d d where
  reached := ⟨0, rfl⟩
  fmt := rfl
  expected := rfl
  len := rfl
  pos := by rw [h.dec]; exact Nat.zero_le _
  status := by rw [h.dec]; rfl
  activity := h.activity
  pixout := h.pixout

theorem bytesLeft_hostStartDecoder (bs : List Byte) (n : Nat) (d : State) : bytesLeft (hostStartDecoder bs n d) = bs :=
  Memory.range_writeAll_self [] 0 bs Memory.wf_nil

theorem bytesLeft_retire {u : State} {bs rest : List Byte} (n : Nat) (px : Pixel) (hleft : bytesLeft u = bs ++ rest) :
    bytesLeft (retire bs.length n px u) = rest := by
  have hlen : u.len - u.dec.pos = bs.length + rest.length := by
    rw [← List.length_append, ← hleft, bytesLeft, Memory.length_range]
  rw [bytesLeft, hlen, Memory.range_append] at hleft
  obtain ⟨-, hrest⟩ := List.append_inj hleft (Memory.length_range ..)
  rw [bytesLeft, retire_chunks, retire_dec_pos, retire_len, ← hrest]
  congr 1
  omega

/-- R211: where `n` pixels or more are owed, a chunk that stands for `n` stores `n`. -/
theorem owed_of_le {n : Nat} {u : State} (h : u.dec.outcnt + n ≤ u.expected) : owed n u = n := by
  unfold owed
  omega

theorem pixelsOut_retire {u : State} {n : Nat} (length : Nat) (px : Pixel) (hw : PixelMemory.wf u.pixout)
    (h : u.dec.outcnt + n ≤ u.expected) :
    pixelsOut (retire length n px u) = pixelsOut u ++ List.replicate n px := by
  have happend := PixelMemory.range_writeAll_append u.pixout 0 u.dec.outcnt (List.replicate n px) hw
  rw [Nat.zero_add, List.length_replicate] at happend
  rw [pixelsOut, retire_dec_outcnt, retire_pixout, owed_of_le h]
  exact happend

/-- R201: where the bytes left begin with a chunk and pixels are owed, the next step retires the chunk. -/
theorem DecoderPassAt.retire {d u : State} {i : Instr} {rest : List Byte} (h : DecoderPassAt d u)
    (hleft : bytesLeft u = encode u.fmt i ++ rest) (hwf : i.wellFormed = true) (hsite : i.site = .chunk)
    (howes : u.dec.outcnt < u.expected) :
    DecoderPassAt d (retire i.length (chunkCount i) (chunkPixel u i) u) := by
  obtain ⟨k, hk⟩ := h.reached
  have hrunning : u.dec.status = .running := h.status.trans (decoderStatus_eq_running_iff.2 howes.ne)
  have hactivity : u.activity = .decodeChunks := by rw [h.activity, hrunning]; rfl
  have hfits : u.dec.pos + i.length ≤ u.len := by
    have hlength := congrArg List.length hleft
    rw [bytesLeft, Memory.length_range, List.length_append, encode_length] at hlength
    have hpos := h.pos
    have hlong := instr_length_pos i
    omega
  have hdecode : decode u.fmt .chunk (bytesLeft u) = .ok (i, rest) := by
    rw [hleft, ← hsite]
    exact decodeOfEncode u.fmt i rest hwf
  obtain ⟨-, -, hchunk⟩ := stepRunsDecoded
  have hstep := (hchunk u i rest hactivity hrunning hdecode).trans (exec_chunk_of_fits i hsite hfits)
  exact
    { h with
      reached := ⟨k + 1, (core_run_add k 1 d u hk).trans (core_run_succ 0 u _ hstep)⟩
      pos := hfits
      status := rfl
      activity := rfl
      pixout := PixelMemory.wf_writeAll _ _ h.pixout }

/-! ### The decoder mirrors the encoder -/

/-- The bytes an encoder pass has emitted. -/
def emitted (e : State) : List Byte := Memory.range e.encout 0 e.enc.outpos

/-- The decoder in `u` mirrors the encoder in `e`, which has consumed `pixels`: it has their registers but for a run that is
pending, and has stored all the pixels but for that run. -/
structure Mirrors (e u : State) (pixels : List Pixel) : Prop where
  prev : u.dec.prev = e.enc.prev
  caches : CachesAgree e.fmt u.dec.cache e.enc.cache
  output : pixelsOut u ++ List.replicate e.enc.run.toNat e.enc.prev = pixels

/-- Every decoder pass over bytes that begin with those emitted, with the pixels consumed or more expected, comes to a state
that mirrors the encoder with the bytes after those left. -/
def Followed (pixels : List Pixel) (e : State) : Prop :=
  ∀ (d : State) (rest : List Byte), DecoderStarted d → d.fmt = e.fmt → bytesLeft d = emitted e ++ rest →
    pixels.length ≤ d.expected → ∃ u, DecoderPassAt d u ∧ bytesLeft u = rest ∧ Mirrors e u pixels

theorem Followed.congr {pixels : List Pixel} {e e' : State} (h : Followed pixels e) (hfmt : e'.fmt = e.fmt)
    (hemitted : emitted e' = emitted e) (hprev : e'.enc.prev = e.enc.prev) (hcache : e'.enc.cache = e.enc.cache)
    (hrun : e'.enc.run = e.enc.run) : Followed pixels e' := by
  intro d rest hd hshared hbytes hn
  obtain ⟨u, hpass, hleft, hmirrors⟩ := h d rest hd (hshared.trans hfmt) (hemitted ▸ hbytes) hn
  exact ⟨u, hpass, hleft, by rw [hprev]; exact hmirrors.prev, by rw [hfmt, hcache]; exact hmirrors.caches,
    by rw [hrun, hprev]; exact hmirrors.output⟩

theorem emitted_emit {e : State} (bs : List Byte) (hw : Memory.wf e.encout) :
    emitted (emit bs e) = emitted e ++ bs := by
  have happend := Memory.range_writeAll_append e.encout 0 e.enc.outpos bs hw
  rwa [Nat.zero_add] at happend

/-- Where the encoder emits one chunk and leaves no run pending, the decoder's next step retires that chunk; it mirrors the
encoder again if the chunk stands, to it, for the encoder's new `PREV`. -/
theorem Followed.chunk {pixels pixels' : List Pixel} {e e' : State} {i : Instr} (h : Followed pixels e)
    (hfmt : e'.fmt = e.fmt) (hemitted : emitted e' = emitted e ++ encode e.fmt i) (hrun : e'.enc.run = 0)
    (hmore : pixels.length ≤ pixels'.length)
    (hchunk : ∀ u, u.fmt = e.fmt → Mirrors e u pixels → i.wellFormed = true ∧ i.site = .chunk ∧
      chunkPixel u i = e'.enc.prev ∧ CachesAgree e.fmt (Cache.put e.fmt.hash u.dec.cache e'.enc.prev) e'.enc.cache ∧
      pixelsOut u ++ List.replicate (chunkCount i) e'.enc.prev = pixels') : Followed pixels' e' := by
  intro d rest hd hshared hbytes hn
  rw [hemitted, List.append_assoc] at hbytes
  obtain ⟨u, hpass, hleft, hmirrors⟩ := h d (encode e.fmt i ++ rest) hd (hshared.trans hfmt) hbytes (hmore.trans hn)
  have hu : u.fmt = e.fmt := hpass.fmt.trans (hshared.trans hfmt)
  obtain ⟨hwf, hsite, hpixel, hcaches, houtput⟩ := hchunk u hu hmirrors
  have hcount : u.dec.outcnt + chunkCount i ≤ u.expected := by
    have hlength := congrArg List.length houtput
    rw [List.length_append, length_pixelsOut, List.length_replicate] at hlength
    rw [hlength, hpass.expected]
    exact hn
  rw [← hu] at hleft
  have howes : u.dec.outcnt < u.expected := by
    have hpos := chunkCount_pos hwf hsite
    omega
  refine ⟨_, hpass.retire hleft hwf hsite howes, ?_, hpixel, ?_, ?_⟩
  · rw [← encode_length u.fmt i]
    exact bytesLeft_retire _ _ hleft
  · rw [retire_dec_cache, hu, hfmt, hpixel]
    exact hcaches
  · rw [pixelsOut_retire _ _ hpass.pixout hcount, hpixel, houtput, hrun]
    exact List.append_nil _

/-! ### The encoder's operations -/

/-- R162: a pixel counted into the run emits nothing, and the decoder waits. -/
theorem Followed.count {pixels : List Pixel} {e : State} (h : Followed pixels e) (hrun : e.enc.run.toNat ≤ 61) :
    Followed (pixels ++ [e.enc.prev]) (setRun (e.enc.run + 1) e) := by
  intro d rest hd hshared hbytes hn
  rw [List.length_append] at hn
  obtain ⟨u, hpass, hleft, hmirrors⟩ := h d rest hd hshared hbytes (by omega)
  refine ⟨u, hpass, hleft, hmirrors.prev, hmirrors.caches, ?_⟩
  rw [setRun_enc_run, setRun_enc_prev, toNat_run_add_one hrun, List.replicate_succ', ← List.append_assoc, hmirrors.output]

/-- R163: the flush of a run is matched by the step that retires it. -/
theorem Followed.flushRun {pixels : List Pixel} {e : State} (h : Followed pixels e) (hw : Memory.wf e.encout)
    (hrecent : EncoderRecent e) (hpending : e.enc.run ≠ 0) (hcap : e.enc.run.toNat ≤ 62) :
    Followed pixels (flushRun e) := by
  have hpos : e.enc.run.toNat ≠ 0 := fun hzero => hpending (BitVec.eq_of_toNat_eq hzero)
  have hwf : (Instr.run e.enc.run.toNat).wellFormed = true := (wellFormed_run_iff _).2 (by omega)
  exact h.chunk rfl (emitted_emit _ hw) rfl le_rfl fun u _ hmirrors =>
    ⟨hwf, rfl, hmirrors.prev, hmirrors.caches.put hrecent fun _ _ => rfl, hmirrors.output⟩

/-- R165 to R172: the chunk of a new pixel is matched by the step that retires it. -/
theorem Followed.encodeNew {pixels : List Pixel} {e : State} (p : Pixel) (h : Followed pixels e) (hw : Memory.wf e.encout)
    (hadm : HashAdmissible e.fmt) (hrun : e.enc.run = 0) : Followed (pixels ++ [p]) (encodeNew p e) := by
  refine h.chunk rfl (emitted_emit _ hw) hrun (by simp) fun u hu hmirrors => ?_
  obtain ⟨hwf, hsite, hcount, hpixel⟩ :=
    newPixelChunk_stands_for_of_hit (u := u) (c := e.enc.cache) (p := p) (hu ▸ hmirrors.caches.hit hadm)
  rw [hmirrors.prev, hu] at hwf hsite hcount hpixel
  have houtput := hmirrors.output
  rw [hrun] at houtput
  refine ⟨hwf, hsite, hpixel, hmirrors.caches.put (.inl (get_missWrite_self _ _ _)) (get_missWrite_of_ne _ _ _), ?_⟩
  rw [hcount, ← houtput]
  simp [Machine.encodeNew]

/-- R161: a pending run is flushed before a new pixel. -/
theorem Followed.flushPending {pixels : List Pixel} {e : State} (h : Followed pixels e) (hw : Memory.wf e.encout)
    (hrecent : EncoderRecent e) (hrun : e.enc.run.toNat ≤ 61) : Followed pixels (flushPending e) := by
  by_cases hpending : e.enc.run = 0
  · rwa [flushPending_of_zero hpending]
  · rw [flushPending_of_pending hpending]
    exact h.flushRun hw hrecent hpending (by omega)

/-- R162: a pixel equal to `PREV` is counted, and the run flushed when it is full or the pixel the last one. -/
theorem Followed.extendRun {pixels : List Pixel} {e : State} (last : Bool) (h : Followed pixels e) (hw : Memory.wf e.encout)
    (hrecent : EncoderRecent e) (hrun : e.enc.run.toNat ≤ 61) :
    Followed (pixels ++ [e.enc.prev]) (extendRun last e) := by
  have hcounted := h.count hrun
  by_cases hflush : e.enc.run + 1 = 62 ∨ last = true
  · have hsucc := toNat_run_add_one hrun
    rw [extendRun_of_flush hflush]
    exact hcounted.flushRun hw hrecent (fun hzero => Nat.succ_ne_zero _ (hsucc.symm.trans (congrArg BitVec.toNat hzero)))
      (by rw [setRun_enc_run]; omega)
  · rwa [extendRun_of_count hflush]

theorem flushPending_fmt (e : State) : (flushPending e).fmt = e.fmt := by
  unfold flushPending
  split <;> rfl

theorem wf_encout_flushPending {e : State} (hw : Memory.wf e.encout) : Memory.wf (flushPending e).encout := by
  unfold flushPending
  split
  · exact hw
  · exact Memory.wf_writeAll _ _ hw

theorem flushPending_enc_run (e : State) : (flushPending e).enc.run = 0 := by
  unfold flushPending
  split
  · assumption
  · rfl

/-- R161: a whole encoder step is matched by the decoder. -/
theorem Followed.encStep {pixels : List Pixel} {e : State} (p : Pixel) (last : Bool) (h : Followed pixels e)
    (hw : Memory.wf e.encout) (hrecent : EncoderRecent e) (hrun : e.enc.run.toNat ≤ 61) (hadm : HashAdmissible e.fmt) :
    Followed (pixels ++ [p]) (encStep p last e) := by
  by_cases hp : p = e.enc.prev
  · subst hp
    rw [Machine.encStep, if_pos rfl]
    exact (h.extendRun last hw hrecent hrun).congr rfl rfl rfl rfl rfl
  · have hflushed := h.flushPending hw hrecent hrun
    rw [Machine.encStep, if_neg hp]
    exact (hflushed.encodeNew p (wf_encout_flushPending hw) (by rwa [flushPending_fmt]) (flushPending_enc_run e)).congr
      rfl rfl rfl rfl rfl

/-- A decoder pass over just the bytes emitted, with just the pixels consumed expected, ends when no run is pending. -/
theorem Followed.decodes {pixels : List Pixel} {e d : State} (h : Followed pixels e) (hrun : e.enc.run = 0)
    (hd : DecoderStarted d) (hshared : d.fmt = e.fmt) (hbytes : bytesLeft d = emitted e)
    (hn : d.expected = pixels.length) :
    ∃ k t, Host.Core.run Sys2Proof.core k d = .next t ∧ t.dec.status = .done ∧ decoderOutput t = some pixels ∧
      t.dec.pos = d.len ∧ t.dec.prev = e.enc.prev ∧ CachesAgree e.fmt t.dec.cache e.enc.cache := by
  obtain ⟨t, hpass, hleft, hmirrors⟩ := h d [] hd hshared (hbytes.trans (List.append_nil _).symm) hn.ge
  obtain ⟨k, hk⟩ := hpass.reached
  have houtput : pixelsOut t = pixels := by
    have houtput := hmirrors.output
    rw [hrun] at houtput
    exact (List.append_nil _).symm.trans houtput
  have hcount : t.dec.outcnt = t.expected := by rw [hpass.expected, hn, ← houtput, length_pixelsOut]
  have hdone : t.dec.status = .done := hpass.status.trans (decoderStatus_eq_done_iff.2 hcount)
  have hend : t.len - t.dec.pos = 0 := by
    rw [← Memory.length_range t.chunks t.dec.pos (t.len - t.dec.pos)]
    exact congrArg List.length hleft
  refine ⟨k, t, hk, hdone, ?_, ?_, hmirrors.prev, hmirrors.caches⟩
  · rw [decoderOutput, if_pos hdone, ← hcount]
    exact congrArg some houtput
  · have hlen := hpass.len
    have hpos := hpass.pos
    omega

/-! ### An encoder pass on its way -/

/-- The encoder pass over `ps`, bare or part of an `encode` call, with `last` on its last pixel, has come to `e`. -/
structure EncoderPassAt (framed : Bool) (ps : List Pixel) (e : State) : Prop where
  pixin : e.pixin = pixelsOf ps
  npix : e.npix = ps.length
  lastAt : e.lastAt = lastOf ps.length
  status : e.enc.status = if e.enc.idx = ps.length then .done else .running
  activity : e.activity =
    if e.enc.idx = ps.length then (if framed then .appendMarker else .idle) else .encodePixels framed
  encout : Memory.wf e.encout
  run : e.enc.run.toNat ≤ 61
  /-- R173(e) -/
  flushed : e.enc.idx = ps.length → e.enc.run = 0
  recent : EncoderRecent e
  followed : Followed (ps.take e.enc.idx) e

/-- R40: with nothing consumed and nothing emitted, a decoder that has just started mirrors an encoder that has. -/
theorem followed_start {e : State} (h : e.enc = freshEncoder e.fmt) : Followed [] e := by
  intro d rest hd hshared hbytes _
  have hnothing : emitted e = [] := by rw [emitted, h]; rfl
  refine ⟨d, hd.passAt, by rw [hbytes, hnothing, List.nil_append], ?_, ?_, ?_⟩
  · rw [hd.dec, h, hshared]
    rfl
  · rw [hd.dec, h]
    exact fun _ => .inl rfl
  · rw [pixelsOut, hd.dec, h]
    rfl

theorem encoderPassAt_hostStartEncoder {s : State} {ps : List Pixel} (hps : ps ≠ []) (hw : Memory.wf s.encout) :
    EncoderPassAt false ps (hostStartEncoder ps (lastOf ps.length) s) where
  pixin := rfl
  npix := rfl
  lastAt := rfl
  status := (if_neg (List.length_pos_iff.2 hps).ne).symm
  activity := (if_neg (List.length_pos_iff.2 hps).ne).symm
  encout := hw
  run := Nat.zero_le _
  flushed := fun _ => rfl
  recent := .inr ⟨rfl, Cache.get_zero _⟩
  followed := followed_start rfl

theorem lastOf_eq_some_iff (n k : Nat) : lastOf n = some k ↔ k + 1 = n := by
  cases n <;> simp [lastOf, eq_comm]

/-- R160: the step that consumes pixel `IDX` carries `last` when the pixel is the last one. -/
theorem EncoderPassAt.lastInput {framed : Bool} {ps : List Pixel} {e : State} (h : EncoderPassAt framed ps e) :
    lastInput e = decide (e.enc.idx + 1 = ps.length) := by
  rw [Machine.lastInput, h.lastAt]
  exact decide_eq_decide.2 (lastOf_eq_some_iff _ _)

theorem EncoderPassAt.pixel {framed : Bool} {ps : List Pixel} {e : State} (h : EncoderPassAt framed ps e)
    (hidx : e.enc.idx < ps.length) :
    PixelMemory.read e.pixin e.enc.idx = ps[e.enc.idx] := by
  have hread := PixelMemory.read_writeAll_inside [] 0 e.enc.idx ps PixelMemory.wf_nil hidx
  rw [Nat.zero_add] at hread
  rw [h.pixin]
  exact hread

/-- R22, R173: a step leaves `RUN` at most 61, and no run pending if it carries `last`. -/
theorem runAfter_bounds (p : Pixel) (last : Bool) {e : State} (hrun : e.enc.run.toNat ≤ 61) :
    (runAfter p last e).toNat ≤ 61 ∧ (last = true → runAfter p last e = 0) := by
  obtain ⟨-, rfl, hcap, hcount, -⟩ | ⟨hzero, -⟩ := runAfter_stepBytes_cases p last hrun
  · exact ⟨by omega, nofun⟩
  · exact ⟨by omega, fun _ => BitVec.eq_of_toNat_eq hzero⟩

/-- R174, R240: the pass is over at its last pixel, when `last` is seen and the loop of `encode` ends. -/
theorem encoderActivity_eq {framed last : Bool} {e : State} (hstatus : e.enc.status = if last then .done else .running)
    (hlast : last = true ↔ e.npix ≤ e.enc.idx) : encoderActivity framed e =
      if last then (if framed then .appendMarker else .idle) else .encodePixels framed := by
  cases framed with
  | false => cases last <;> simp [encoderActivity_bare, hstatus]
  | true => cases last <;> simp [encoderActivity_framed, hstatus, ← hlast]

theorem EncoderPassAt.step {framed : Bool} {ps : List Pixel} {e : State} (h : EncoderPassAt framed ps e)
    (hadm : HashAdmissible e.fmt) (hidx : e.enc.idx < ps.length) : EncoderPassAt framed ps (encodePixelStep framed e) := by
  generalize hlast : Machine.lastInput e = last
  have hend : last = true ↔ e.enc.idx + 1 = ps.length := by rw [← hlast, h.lastInput, decide_eq_true_iff]
  have hstatus : e.enc.status = .running := h.status.trans (if_neg hidx.ne)
  have hover : last = true ↔ (encStep ps[e.enc.idx] last e).npix ≤ (encStep ps[e.enc.idx] last e).enc.idx := by
    rw [encStep_npix, encStep_enc_idx, h.npix, hend]
    omega
  obtain ⟨hcap, hflush⟩ := runAfter_bounds ps[e.enc.idx] last h.run
  obtain ⟨hrecent, -⟩ := encoderCacheRecency ps[e.enc.idx] last e h.recent
  have hfollowed := h.followed.encStep ps[e.enc.idx] last h.encout h.recent h.run hadm
  rw [encStep_eq] at hrecent hfollowed
  rw [List.take_append_getElem hidx] at hfollowed
  rw [encodePixelStep_record (h.pixel hidx) hlast]
  exact
    { h with
      status := by simp only [hstatus, hend]
      activity := (encoderActivity_eq (last := last) (by rw [encStep_enc_status, hstatus]) hover).trans (by simp only [hend])
      encout := Memory.wf_writeAll _ _ h.encout
      run := hcap
      flushed := fun hdone => hflush (hend.2 hdone)
      recent := hrecent
      followed := hfollowed.congr rfl rfl rfl rfl rfl }

theorem EncoderPassAt.enabled {framed : Bool} {ps : List Pixel} {e : State} (h : EncoderPassAt framed ps e)
    (hidx : e.enc.idx < ps.length) : EncoderEnabled framed e :=
  ⟨h.activity.trans (if_neg hidx.ne), h.status.trans (if_neg hidx.ne), hidx.trans_eq h.npix.symm⟩

/-- R160: `j` further steps of the pass consume `j` pixels. -/
theorem EncoderPassAt.run_steps {framed : Bool} {s : State} {ps : List Pixel} (h : EncoderPassAt framed ps s)
    (hadm : HashAdmissible s.fmt) {j : Nat} (hj : s.enc.idx + j ≤ ps.length) :
    ∃ e, Host.Core.run Sys2Proof.core j s = .next e ∧ EncoderPassAt framed ps e ∧ e.enc.idx = s.enc.idx + j ∧
      e.fmt = s.fmt := by
  induction j with
  | zero => exact ⟨s, rfl, h, rfl, rfl⟩
  | succ j ih =>
    obtain ⟨e, hrun, hpass, hidx, hfmt⟩ := ih (by omega)
    have hlt : e.enc.idx < ps.length := by omega
    have hstep := step_of_encoderEnabled (hpass.enabled hlt)
    exact ⟨_, (core_run_add j 1 s e hrun).trans (core_run_succ 0 e _ hstep), hpass.step (hfmt ▸ hadm) hlt,
      (encStep_enc_idx _ _ e).trans (congrArg (· + 1) hidx), (encodePixelStep_frame framed e).fmt.trans hfmt⟩

/-- The first `j` steps of a bare pass. -/
theorem hostStartEncoder_run {s : State} {ps : List Pixel} (hps : ps ≠ []) (hadm : HashAdmissible s.fmt)
    (hw : Memory.wf s.encout) {j : Nat} (hj : j ≤ ps.length) :
    ∃ e, Host.Core.run Sys2Proof.core j (hostStartEncoder ps (lastOf ps.length) s) = .next e ∧
      EncoderPassAt false ps e ∧ e.enc.idx = j ∧ e.fmt = s.fmt := by
  have hstart := encoderPassAt_hostStartEncoder hps hw
  obtain ⟨e, hrun, hpass, hidx, hfmt⟩ := hstart.run_steps hadm (j := j) ((Nat.zero_add j).trans_le hj)
  exact ⟨e, hrun, hpass, hidx.trans (Nat.zero_add j), hfmt⟩

/-- Settles O57: the decoder that mirrors the encoder with no run pending and no byte left is `Done`. -/
theorem cachesRelated : Obligations.CachesRelated := by
  intro s d e ps j hadm hd hw hpixout hpos hj hrun hnone
  have hps : ps ≠ [] := List.length_pos_iff.1 (hpos.trans hj)
  obtain ⟨e', hrun', hpass, hidx, hfmt⟩ := hostStartEncoder_run hps hadm hw hj
  obtain rfl : e' = e := outcome_next_inj (hrun'.symm.trans hrun)
  have hcount : j = (ps.take e'.enc.idx).length := by rw [hidx, List.length_take_of_le hj]
  obtain ⟨k, t, hdecoded, hdone, -, -, hprev, hcaches⟩ := hpass.followed.decodes hnone
    (decoderStarted_hostStartDecoder (emitted e') j hpixout) (hd.trans hfmt.symm) (bytesLeft_hostStartDecoder _ _ _) hcount
  exact ⟨k, t, hdecoded, hdone, hprev, hfmt ▸ hcaches⟩

/-- Settles O55: after its last pixel the encoder has no run pending, and the decoder that mirrors it has stored every pixel. -/
theorem chunkRoundTrip : Obligations.ChunkRoundTrip := by
  intro s d ps hps hadm hd hw hpixout
  obtain ⟨e, hrun, hpass, hidx, hfmt⟩ := hostStartEncoder_run hps hadm hw le_rfl
  have hend : e.enc.status = .done := hpass.status.trans (if_pos hidx)
  have hfollowed := hpass.followed
  rw [hidx, List.take_length] at hfollowed
  obtain ⟨k, t, hdecoded, -, houtput, hpos, -⟩ := hfollowed.decodes (hpass.flushed hidx)
    (decoderStarted_hostStartDecoder (emitted e) ps.length hpixout) (hd.trans hfmt.symm)
    (bytesLeft_hostStartDecoder _ _ _) rfl
  exact ⟨e, emitted e, hrun, (encoderOutput_eq_some_iff e _).2 ⟨.inl hend, rfl⟩, k, t, hdecoded, houtput, hpos⟩

end Sys2Proof.Machine
end

section
/-! SUPPORT. The stream's framing (R240 to R248), step by step: `decode` parses the header and then looks for the end marker,
`encode` writes the header and, after its pass, the chunks and the end marker. -/

namespace Sys2Proof.Machine

/-! ### The header parsed (R120, R241) -/

/-- R128: the first fourteen bytes, or as many as there are, decide. -/
theorem parseHeader_take (f : Format) (bs : List Byte) : parseHeader f (bs.take 14) = parseHeader f bs := by
  rcases Nat.lt_or_ge bs.length 14 with hshort | hlong
  · rw [List.take_of_length_le hshort.le]
  · rw [← parseHeader_append f (bs.drop 14) (List.length_take_of_le hlong).ge, List.take_append_drop]

/-- R120, R241: what the first step of `decode` makes of the header's parse. -/
def afterParse (s : State) : Except HeaderDefect (BitVec 32 × BitVec 32 × Byte × Byte) → State
  | .ok (w, h, c, cs) => { s with width := w, height := h, channels := c, colorspace := cs, activity := .checkMarker }
  | .error d => raise .decoder .malformedHeader (.header d) s

/-- R120 to R122: fetching the header and executing it make together the checks of `parseHeader`. -/
theorem runFetched_fetchHeader (s : State) : runFetched (fetchHeader s) s =
    .next (afterParse s (parseHeader s.fmt (Memory.range s.stream 0 (min 14 s.slen)))) := by
  cases hdecode : decodeHeader s.fmt (Memory.range s.stream 0 (min 14 s.slen)) with
  | error e => cases e <;> simp only [fetchHeader, decode, parseHeader, hdecode] <;> rfl
  | ok r =>
    obtain ⟨i, rest⟩ := r
    have hsite : i.site = .header := decode_site (site := .header) hdecode
    cases i with
    | hdr w h c cs =>
      rw [parseHeader_of_hdr hdecode]
      simp only [fetchHeader, decode, hdecode, runFetched]
      cases hdefect : headerDefect c cs with
      | some d => exact exec_hdr_of_defect w h s hdefect
      | none => exact exec_hdr_of_legal w h s ((headerDefect_eq_none_iff c cs).1 hdefect)
    | _ => cases hsite

theorem step_of_parseHeader {s : State} (ha : s.activity = .parseHeader) :
    step s = .next (afterParse s (parseHeader s.fmt (Memory.range s.stream 0 s.slen))) := by
  rw [← parseHeader_take, Memory.take_range, ← runFetched_fetchHeader, step, ha]

/-- Settles O31: the step reads the first fourteen bytes only, and `parseHeader` does not look at others. -/
theorem decodeParsesHeader : Obligations.DecodeParsesHeader := by
  intro s ha
  rw [step_of_parseHeader ha]
  cases parseHeader s.fmt (Memory.range s.stream 0 s.slen) <;> rfl

/-! ### The end marker (R242 to R245) -/

/-- R242: the end marker is at the end of `STREAM`, after room for the header. -/
def MarkerAtEnd (s : State) : Prop := 22 ≤ s.slen ∧ Memory.range s.stream (s.slen - 8) 8 = endMarkerBytes

theorem fetchMarker_of_present {s : State} (h : MarkerAtEnd s) : fetchMarker s = .run .endMarker := by
  obtain ⟨hroom, hbytes⟩ := h
  refine fetchMarker_of_decode hroom (rest := []) ?_
  rw [hbytes]
  rfl

theorem fetchMarker_of_absent {s : State} (h : ¬ MarkerAtEnd s) :
    fetchMarker s = .traps .missingEndMarker (.marker s.slen) := by
  unfold fetchMarker
  split
  next => rfl
  next hroom =>
    have hbytes : Memory.range s.stream (s.slen - 8) 8 ≠ endMarkerBytes := fun e => h ⟨Nat.not_lt.1 hroom, e⟩
    have htake : (Memory.range s.stream (s.slen - 8) 8).take 8 = Memory.range s.stream (s.slen - 8) 8 := by
      rw [Memory.take_range, Nat.min_self]
    simp only [decode, decodeMarker, htake, if_neg hbytes]

theorem step_of_marker {s : State} (ha : s.activity = .checkMarker) (h : MarkerAtEnd s) :
    step s = exec .endMarker s := by
  simp only [step, ha, fetchMarker_of_present h, runFetched]

theorem step_of_no_marker {s : State} (ha : s.activity = .checkMarker) (h : ¬ MarkerAtEnd s) :
    step s = .next (raise .decoder .missingEndMarker (.marker s.slen) s) := by
  simp only [step, ha, fetchMarker_of_absent h, runFetched]

/-- Settles O33: what is fetched is the marker or the error, by the length and the last eight bytes. -/
theorem decodeChecksMarker : Obligations.DecodeChecksMarker := by
  refine fun s ha => ⟨fun habsent => ?_, fun hroom hbytes => step_of_marker ha ⟨hroom, hbytes⟩⟩
  have h : ¬ MarkerAtEnd s := fun ⟨hroom, hbytes⟩ => habsent.elim (Nat.not_lt.2 hroom) (· hbytes)
  exact ⟨_, step_of_no_marker ha h, raise_decoder_effect _ _ s⟩

/-- Settles O34: the whole effect is that of `raise`. -/
theorem endMarkerNeedsRoom : Obligations.EndMarkerNeedsRoom := fun s h =>
  ⟨_, if_pos h, raise_decoder_effect _ _ s⟩

/-- R241, R244, R248: the decoder pass over the bytes between the header and the end marker, just started. -/
def chunkPassStart (s : State) : State :=
  passStartDec { s with
    chunks := Memory.window s.stream 14 (s.slen - 8)
    len := s.slen - 22
    expected := s.width.toNat * s.height.toNat }

theorem exec_endMarker_of_room {s : State} (h : 22 ≤ s.slen) : exec .endMarker s = .next (chunkPassStart s) :=
  if_neg (Nat.not_lt.2 h)

/-- R52, R244: offset `k` of the chunk region is offset `14 + k` of the stream. -/
theorem read_chunks_chunkPassStart {s : State} {k : Nat} (h : k < (chunkPassStart s).len) :
    Memory.read (chunkPassStart s).chunks k = Memory.read s.stream (14 + k) := by
  simp only [chunkPassStart, passStartDec_len] at h
  exact Memory.read_window _ _ _ _ (by omega)

/-- Settles O32: the window of the stream, and the values of a decoder pass start. -/
theorem endMarkerStartsPass : Obligations.EndMarkerStartsPass := by
  intro s h
  obtain ⟨-, hstart⟩ := passStartValues
  obtain ⟨hcache, hprev, hpos, hcount, herr, hstatus, heq⟩ := hstart _ (chunkPassStart s) rfl
  have hactivity := congrArg State.activity heq
  refine ⟨_, exec_endMarker_of_room h, rfl, rfl, fun k => read_chunks_chunkPassStart, hprev, hcache, hpos, hcount, herr,
    fun hzero => ⟨hstatus.trans (if_pos hzero), hactivity.trans (if_pos hzero)⟩,
    fun hzero => ⟨hstatus.trans (if_neg hzero), hactivity.trans (if_neg hzero)⟩, rfl⟩

/-! ### The header built (R124, R240) -/

/-- R125: the first illegal field is the defect, the channel count tested first. -/
theorem headerDefect_of_illegal {c cs : Byte} (h : ¬ HeaderLegal c cs) :
    headerDefect c cs = some (if c = 3 ∨ c = 4 then .badColorSpace else .badChannels) := by
  by_cases hc : c = 3 ∨ c = 4
  · obtain ⟨h0, h1⟩ := not_or.1 fun hcs => h ⟨hc, hcs⟩
    rw [if_pos hc, headerDefect_of_badColorSpace hc h0 h1]
  · obtain ⟨h3, h4⟩ := not_or.1 hc
    rw [if_neg hc, headerDefect_of_badChannels cs h3 h4]

/-- R240: the header is written to `STREAM` and the encoder pass started; with no pixel its loop is over. -/
def encodeStart (s : State) : State :=
  { s with
    stream := bufferOf (encode s.fmt (.hdr s.width s.height s.channels s.colorspace))
    slen := 14
    enc := freshEncoder s.fmt
    activity := if s.npix = 0 then .appendMarker else .encodePixels true }

theorem step_of_buildHeader_legal {s : State} (ha : s.activity = .buildHeader) (hl : HeaderLegal s.channels s.colorspace) :
    step s = .next (encodeStart s) := by
  obtain ⟨d, hdefect, -⟩ | ⟨-, hstep⟩ := buildHeaderStep_cases s
  · rw [(headerDefect_eq_none_iff ..).2 hl] at hdefect
    cases hdefect
  · simp only [step, ha, hstep]
    rfl

theorem step_of_buildHeader_illegal {s : State} (ha : s.activity = .buildHeader)
    (hl : ¬ HeaderLegal s.channels s.colorspace) : step s = .next (raise .encoder .malformedHeader
      (.header (if s.channels = 3 ∨ s.channels = 4 then .badColorSpace else .badChannels)) s) := by
  simp only [step, ha, buildHeaderStep, buildHeader_of_defect _ _ _ (headerDefect_of_illegal hl)]

theorem range_bufferOf (bs : List Byte) : Memory.range (bufferOf bs) 0 bs.length = bs :=
  Memory.range_writeAll_self [] 0 bs Memory.wf_nil

theorem range_stream_encodeStart (s : State) : Memory.range (encodeStart s).stream 0 14 =
    encode s.fmt (.hdr s.width s.height s.channels s.colorspace) := range_bufferOf _

/-- Settles O35: the domain check decides between the pass start and the raise. -/
theorem encodeBuildsHeader : Obligations.EncodeBuildsHeader := by
  intro s ha
  by_cases hl : HeaderLegal s.channels s.colorspace
  · exact ⟨_, step_of_buildHeader_legal ha hl, fun _ => ⟨range_stream_encodeStart s, rfl, rfl, Cache.get_zero, rfl, rfl,
      rfl, rfl, rfl, fun hnone => if_pos hnone, fun hpixel => if_neg hpixel, rfl⟩,
      absurd hl⟩
  · exact ⟨_, step_of_buildHeader_illegal ha hl, fun h => absurd h hl, fun _ => ⟨rfl, rfl, rfl⟩⟩

/-! ### The end marker appended (R240) -/

theorem encodeResult_appendMarkerStep {s : State} (hw : Memory.wf s.stream) : encodeResult (appendMarkerStep s) =
    some (Memory.range s.stream 0 14 ++ Memory.range s.encout 0 s.enc.outpos ++ endMarkerBytes) := by
  have hbytes := Memory.range_writeAll_append s.stream 0 14
    (Memory.range s.encout 0 s.enc.outpos ++ endMarkerBytes) hw
  rw [← List.append_assoc] at hbytes
  exact congrArg some hbytes

theorem slen_appendMarkerStep (s : State) : (appendMarkerStep s).slen = 14 + s.enc.outpos + 8 := by
  rw [appendMarkerStep, List.length_append, Memory.length_range, Nat.add_assoc]
  rfl

theorem step_of_appendMarker {s : State} (ha : s.activity = .appendMarker) : step s = .next (appendMarkerStep s) := by
  simp only [step, ha]

/-- Settles O36: the bytes are appended at offset 14, and the result is the first `SLEN` bytes. -/
theorem encodeAppendsMarker : Obligations.EncodeAppendsMarker := fun s ha hw =>
  ⟨_, step_of_appendMarker ha, slen_appendMarkerStep s, encodeResult_appendMarkerStep hw, rfl⟩

end Sys2Proof.Machine
end

section
/-! SUPPORT. A `decode` call as a whole (R241, R246, R267): what its decoder pass leaves alone, and that the call ends with the
image or with an error. -/

namespace Sys2Proof.Machine

/-! ### Runs -/

/-- What every step keeps, every run keeps. -/
theorem core_run_induction {P : State → Prop} (hstep : ∀ s t, P s → step s = .next t → P t) {k : Nat} {s t : State}
    (hs : P s) (hrun : Host.Core.run Sys2Proof.core k s = .next t) : P t := by
  induction k generalizing s with
  | zero =>
    obtain rfl := outcome_next_inj hrun
    exact hs
  | succ k ih =>
    obtain ⟨u, hu, hrest⟩ := core_run_succ_inv hrun
    exact ih (hstep s u hs hu) hrest

/-! ### What a decoder pass leaves alone (R29, R33, R60) -/

theorem SameButDecoder.refl (s : State) : SameButDecoder s s :=
  ⟨rfl, rfl, ⟨rfl, rfl, rfl, rfl⟩, ⟨rfl, rfl, rfl, rfl, rfl⟩, ⟨rfl, rfl, rfl⟩, rfl⟩

theorem SameButDecoder.trans {s t u : State} (h : SameButDecoder s t) (h' : SameButDecoder t u) : SameButDecoder s u := by
  obtain ⟨hfmt, henc, hheader, hcontrol, hbytes, hpixin⟩ := h
  obtain ⟨hfmt', henc', hheader', hcontrol', hbytes', hpixin'⟩ := h'
  exact ⟨hfmt'.trans hfmt, henc'.trans henc, by simp [hheader', hheader], by simp [hcontrol', hcontrol],
    by simp [hbytes', hbytes], hpixin'.trans hpixin⟩

theorem sameButDecoder_retire (length n : Nat) (px : Pixel) (s : State) : SameButDecoder s (retire length n px s) :=
  ⟨rfl, rfl, ⟨rfl, rfl, rfl, rfl⟩, ⟨rfl, rfl, rfl, rfl, rfl⟩, ⟨rfl, rfl, rfl⟩, rfl⟩

/-- R201, R210: a step of a decoder pass raises an error or retires a chunk. -/
theorem decodeChunks_step_cases {s t : State} (ha : s.activity = .decodeChunks) (h : step s = .next t) :
    (∃ k info, t = raise .decoder k info s) ∨ ∃ length n px, t = retire length n px s := by
  obtain ⟨-, k, info, -, ht⟩ | ⟨ha', -⟩ | ⟨ha', -⟩ | ⟨-, -, i, -, -, ht⟩ | hencode := step_effects h
  · exact .inl ⟨k, info, ht⟩
  · cases ha.symm.trans ha'
  · cases ha.symm.trans ha'
  · exact .inr ⟨_, _, _, ht⟩
  · obtain ⟨ha', -⟩ | ⟨framed, ⟨ha', -⟩, -⟩ | ⟨ha', -⟩ := hencode <;> cases ha.symm.trans ha'

/-- A decoder pass started in `d` may come to `t`: nothing outside the decoder has changed, and the pass goes on while it is
`Running`. -/
structure InDecoderPass (d t : State) : Prop where
  frame : SameButDecoder d t
  activity : t.activity = decoderActivity t.dec.status

theorem InDecoderPass.step {d s t : State} (h : InDecoderPass d s) (ht : step s = .next t) : InDecoderPass d t := by
  by_cases hrunning : s.dec.status = .running
  · have ha : s.activity = .decodeChunks := h.activity.trans (if_pos hrunning)
    obtain ⟨k, info, rfl⟩ | ⟨length, n, px, rfl⟩ := decodeChunks_step_cases ha ht
    · exact ⟨h.frame.trans (raise_decoder_effect k info s).frame, rfl⟩
    · exact ⟨h.frame.trans (sameButDecoder_retire length n px s), rfl⟩
  · have ha : s.activity = .idle := h.activity.trans (if_neg hrunning)
    cases ((step_eq_noStepEnabled_iff s).2 (.inl ha)).symm.trans ht

theorem InDecoderPass.run {d t : State} {k : Nat} (ha : d.activity = decoderActivity d.dec.status)
    (hrun : Host.Core.run Sys2Proof.core k d = .next t) : InDecoderPass d t :=
  core_run_induction (fun _ _ => InDecoderPass.step) ⟨SameButDecoder.refl d, ha⟩ hrun

/-- R26: a pass that is `Done` or at fault is over. -/
theorem InDecoderPass.idle {d t : State} (h : InDecoderPass d t) (hended : t.dec.status ≠ .running) : t.activity = .idle :=
  h.activity.trans (if_neg hended)

/-! ### What a `decode` call returns (R267) -/

theorem decodeResult_of_output {t : State} {ps : List Pixel} (ha : t.activity = .idle) (hps : decoderOutput t = some ps) :
    decodeResult t = some (ps, t.width, t.height, t.channels, t.colorspace) := by
  simp only [decodeResult, if_pos ha, hps, Option.map_some]

theorem decodeResult_of_fault {t : State} {k : ErrorKind} (hfault : t.dec.status = .fault k) : decodeResult t = none := by
  simp [decodeResult, decoderOutput, hfault]

/-- R241, R267: a `decode` call of `bs` is over in `t`, with the whole image or with one of three kinds and no data. -/
def DecodeEnded (f : Format) (bs : List Byte) (t : State) : Prop :=
  t.activity = .idle ∧
    ((∃ ps w h c cs, decodeResult t = some (ps, w, h, c, cs) ∧ parseHeader f bs = .ok (w, h, c, cs) ∧
        ps.length = w.toNat * h.toNat) ∨
      (decodeResult t = none ∧
        (errorOf t.dec.status = some .malformedHeader ∨ errorOf t.dec.status = some .missingEndMarker ∨
          errorOf t.dec.status = some .truncatedStream)))

theorem decodeEnded_of_fault {f : Format} {bs : List Byte} {t : State} {k : ErrorKind} (ha : t.activity = .idle)
    (hfault : t.dec.status = .fault k) (hk : k = .malformedHeader ∨ k = .missingEndMarker ∨ k = .truncatedStream) :
    DecodeEnded f bs t := by
  refine ⟨ha, .inr ⟨decodeResult_of_fault hfault, ?_⟩⟩
  rw [hfault]
  exact hk.imp (congrArg some) (.imp (congrArg some) (congrArg some))

theorem decodeEnded_of_done {f : Format} {bs : List Byte} {t : State} (ha : t.activity = .idle)
    (hdone : t.dec.status = .done) (hheader : parseHeader f bs = .ok (t.width, t.height, t.channels, t.colorspace))
    (hexpected : t.expected = t.width.toNat * t.height.toNat) : DecodeEnded f bs t :=
  ⟨ha, .inl ⟨_, _, _, _, _, decodeResult_of_output ha (if_pos hdone), hheader, (Store.length_range ..).trans hexpected⟩⟩

/-! ### The whole call (R241) -/

theorem step_hostDecode (bs : List Byte) (s : State) :
    step (hostDecode bs s) = .next (afterParse (hostDecode bs s) (parseHeader s.fmt bs)) := by
  have hstep := step_of_parseHeader (s := hostDecode bs s) rfl
  rwa [show Memory.range (hostDecode bs s).stream 0 (hostDecode bs s).slen = bs from range_bufferOf bs] at hstep

/-- R214: the decoder pass of a `decode` call ends, after at most one step more than it has bytes. -/
theorem chunkPass_ends (s : State) : ∃ k t, k ≤ s.slen - 22 + 1 ∧
    Host.Core.run Sys2Proof.core k (chunkPassStart s) = .next t ∧
    (t.dec.status = .done ∨ t.dec.status = .fault .truncatedStream) := by
  by_cases hzero : s.width.toNat * s.height.toNat = 0
  · exact ⟨0, _, Nat.zero_le _, rfl, .inl (decoderStatus_eq_done_iff.2 hzero.symm)⟩
  · have hrunning : (chunkPassStart s).dec.status = .running := decoderStatus_eq_running_iff.2 (Ne.symm hzero)
    have henabled : DecoderEnabled (chunkPassStart s) := ⟨if_pos hrunning, hrunning, Nat.pos_of_ne_zero hzero⟩
    obtain ⟨k, t, hbytes, -, hrun, hend⟩ := decoderPassEnds _ henabled (Nat.zero_le _)
    exact ⟨k, t, hbytes, hrun, hend.imp_left And.left⟩

/-- R241, R242: with the header parsed, the call ends: the marker is missing, or the decoder pass is over, `Done` or at
fault. -/
theorem decodeEnded_of_headerParsed {f : Format} {bs : List Byte} {u : State} (ha : u.activity = .checkMarker)
    (hslen : u.slen = bs.length) (hheader : parseHeader f bs = .ok (u.width, u.height, u.channels, u.colorspace)) :
    ∃ k t, k ≤ bs.length + 1 ∧ Host.Core.run Sys2Proof.core k u = .next t ∧ DecodeEnded f bs t := by
  by_cases hmarker : MarkerAtEnd u
  · have ⟨hroom, _⟩ := hmarker
    have hstart := (step_of_marker ha hmarker).trans (exec_endMarker_of_room hroom)
    obtain ⟨k, t, hk, hrun, hend⟩ := chunkPass_ends u
    have hpass := InDecoderPass.run rfl hrun
    refine ⟨k + 1, t, by omega, (core_run_succ k u _ hstart).trans hrun, ?_⟩
    obtain hdone | hfault := hend
    · obtain ⟨-, -, ⟨hw, hh, hc, hcs⟩, ⟨hexpected, -⟩, -⟩ := hpass.frame
      refine decodeEnded_of_done (hpass.idle (by simp [hdone])) hdone ?_ ?_
      · rw [hw, hh, hc, hcs]
        exact hheader
      · rw [hw, hh, hexpected]
        rfl
    · exact decodeEnded_of_fault (hpass.idle (by simp [hfault])) hfault (.inr (.inr rfl))
  · exact ⟨1, _, by omega, core_run_succ 0 u _ (step_of_no_marker ha hmarker),
      decodeEnded_of_fault rfl rfl (.inr (.inl rfl))⟩

/-- R241: where header and end marker are there, the first two steps of the call start its decoder pass. -/
theorem hostDecode_run_two {d : State} {bs : List Byte} {fields : BitVec 32 × BitVec 32 × Byte × Byte}
    (hheader : parseHeader d.fmt bs = .ok fields) (hroom : 22 ≤ bs.length)
    (hmarker : Memory.range (bufferOf bs) (bs.length - 8) 8 = endMarkerBytes) :
    Host.Core.run Sys2Proof.core 2 (hostDecode bs d) = .next (chunkPassStart (afterParse (hostDecode bs d) (.ok fields))) := by
  have hparse := step_hostDecode bs d
  rw [hheader] at hparse
  have hstart := (step_of_marker (s := afterParse (hostDecode bs d) (.ok fields)) rfl ⟨hroom, hmarker⟩).trans
    (exec_endMarker_of_room hroom)
  exact (core_run_succ 1 _ _ hparse).trans (core_run_succ 0 _ _ hstart)

/-- Settles O58: the header is refused at the first step, or the call goes on to the end marker. -/
theorem decodeCallEnds : Obligations.DecodeCallEnds := by
  intro s bs
  change ∃ k t, k ≤ bs.length + 2 ∧ Host.Core.run Sys2Proof.core k (hostDecode bs s) = .next t ∧ DecodeEnded s.fmt bs t
  have hstep := step_hostDecode bs s
  cases hheader : parseHeader s.fmt bs with
  | error d =>
    rw [hheader] at hstep
    exact ⟨1, _, by omega, core_run_succ 0 _ _ hstep, decodeEnded_of_fault rfl rfl (.inl rfl)⟩
  | ok fields =>
    rw [hheader] at hstep
    obtain ⟨k, t, hk, hrun, hended⟩ :=
      decodeEnded_of_headerParsed (u := afterParse (hostDecode bs s) (.ok fields)) rfl rfl hheader
    exact ⟨k + 1, t, Nat.succ_le_succ hk, (core_run_succ k _ _ hstep).trans hrun, hended⟩

end Sys2Proof.Machine
end

section
/-! SUPPORT. An `encode` call as a whole (R173, R174, R240): the loop over the pixels, with or without one, and what the call
returns; then that `decode` gives the image back (R247). -/

namespace Sys2Proof.Machine

/-! ### How many bytes a step emits (R173) -/

/-- R173: a step that leaves no run pending has emitted a byte. -/
theorem runAfter_add_length_stepBytes_pos (p : Pixel) (last : Bool) {s : State} (hrun : s.enc.run.toNat ≤ 61) :
    0 < (runAfter p last s).toNat + (stepBytes p last s).length := by
  by_cases hp : p = s.enc.prev
  · by_cases hflush : s.enc.run.toNat + 1 = 62 ∨ last = true
    · obtain ⟨-, hbytes⟩ := runStep_of_flush hp hrun hflush
      simp [hbytes]
    · obtain ⟨hcount, -⟩ := runStep_of_count hp hrun hflush
      omega
  · have hchunk := instr_length_pos (newPixelChunk s.fmt.hash s.enc.cache s.enc.prev p)
    rw [stepBytes_of_ne hp, List.length_append, encode_length]
    omega

/-! ### The loop over the pixels (R240) -/

/-- The loop of an `encode` call over `n` pixels, none or more, has come to `e`, with the header in `stream`. -/
structure EncodeLoopAt (n : Nat) (stream : Memory) (e : State) : Prop where
  npix : e.npix = n
  lastAt : e.lastAt = lastOf n
  stream : e.stream = stream
  idx : e.enc.idx ≤ n
  status : e.enc.status = if 0 < e.enc.idx ∧ e.enc.idx = n then .done else .running
  activity : e.activity = if e.enc.idx = n then .appendMarker else .encodePixels true
  run : e.enc.run.toNat ≤ 61
  /-- R173(e) -/
  flushed : e.enc.idx = n → e.enc.run = 0
  /-- at most five bytes a pixel, a pending run's flush byte counted -/
  atMost : e.enc.outpos + e.enc.run.toNat ≤ 5 * e.enc.idx
  /-- and at least one when there is a pixel -/
  atLeast : 0 < e.enc.idx → 0 < e.enc.outpos + e.enc.run.toNat

/-- R240: with no pixel the loop is over when it starts. -/
theorem activity_encodeStart (s : State) :
    (encodeStart s).activity = if 0 = s.npix then .appendMarker else .encodePixels true := by
  simp only [encodeStart, eq_comm]

theorem encodeLoopAt_encodeStart {s : State} (hlast : s.lastAt = lastOf s.npix) :
    EncodeLoopAt s.npix (encodeStart s).stream (encodeStart s) where
  npix := rfl
  lastAt := hlast
  stream := rfl
  idx := Nat.zero_le _
  status := rfl
  activity := activity_encodeStart s
  run := Nat.zero_le _
  flushed := fun _ => rfl
  atMost := le_rfl
  atLeast := fun h => h

section
variable {n : Nat} {stream : Memory} {e : State}

theorem EncodeLoopAt.enabled (h : EncodeLoopAt n stream e) (hidx : e.enc.idx < n) : EncoderEnabled true e :=
  ⟨h.activity.trans (if_neg hidx.ne), h.status.trans (if_neg fun hend => hidx.ne hend.2), hidx.trans_eq h.npix.symm⟩

theorem EncodeLoopAt.step (h : EncodeLoopAt n stream e) (hidx : e.enc.idx < n) :
    EncodeLoopAt n stream (encodePixelStep true e) := by
  have ⟨_, hrunning, _⟩ := h.enabled hidx
  generalize hp : PixelMemory.read e.pixin e.enc.idx = p
  generalize hlast : lastInput e = last
  have hend : last = true ↔ e.enc.idx + 1 = n := by
    rw [← hlast, lastInput, h.lastAt, decide_eq_true_iff, lastOf_eq_some_iff]
  have hover : last = true ↔ (encStep p last e).npix ≤ (encStep p last e).enc.idx := by
    rw [encStep_npix, encStep_enc_idx, h.npix, hend]
    omega
  obtain ⟨hcap, hflush⟩ := runAfter_bounds p last h.run
  have hcases := runAfter_stepBytes_cases p last h.run
  have hbyte := runAfter_add_length_stepBytes_pos p last h.run
  have hatMost := h.atMost
  rw [encodePixelStep_record hp hlast]
  exact
    { h with
      idx := hidx
      status := by simp [hrunning, hend]
      activity := (encoderActivity_eq (framed := true) (by rw [encStep_enc_status, hrunning]) hover).trans
        (by simp only [hend, if_true])
      run := hcap
      flushed := fun hdone => hflush (hend.2 hdone)
      atMost := by
        obtain ⟨-, -, -, hrun, hbytes⟩ | ⟨hrun, hbytes⟩ := hcases
        · simp only [hrun, hbytes, List.length_nil]
          omega
        · simp only [hrun]
          omega
      atLeast := fun _ => by
        simp only
        omega }

/-- R240: `j` further steps of the loop consume `j` pixels. -/
theorem EncodeLoopAt.run_steps (h : EncodeLoopAt n stream e) {j : Nat} (hj : e.enc.idx + j ≤ n) :
    ∃ t, Host.Core.run Sys2Proof.core j e = .next t ∧ EncodeLoopAt n stream t ∧ t.enc.idx = e.enc.idx + j := by
  induction j with
  | zero => exact ⟨e, rfl, h, rfl⟩
  | succ j ih =>
    obtain ⟨u, hrun, hloop, hidx⟩ := ih (by omega)
    have hlt : u.enc.idx < n := by omega
    have hstep := step_of_encoderEnabled (hloop.enabled hlt)
    exact ⟨_, (core_run_add j 1 e u hrun).trans (core_run_succ 0 u _ hstep), hloop.step hlt,
      (encStep_enc_idx _ _ u).trans (congrArg (· + 1) hidx)⟩

end

/-! ### The whole call (R240) -/

section
variable {s : State} {w h : BitVec 32} {c cs : Byte} {ps : List Pixel}

theorem step_hostEncode (hl : HeaderLegal c cs) :
    step (hostEncode w h c cs ps s) = .next (encodeStart (hostEncode w h c cs ps s)) :=
  step_of_buildHeader_legal rfl hl

/-- R240: with legal header fields, `NPIX + 1` steps lead to the last one, every pixel consumed. -/
theorem hostEncode_run (hl : HeaderLegal c cs) : ∃ e,
    Host.Core.run Sys2Proof.core (ps.length + 1) (hostEncode w h c cs ps s) = .next e ∧
      EncodeLoopAt ps.length (encodeStart (hostEncode w h c cs ps s)).stream e ∧ e.enc.idx = ps.length := by
  have hstart := encodeLoopAt_encodeStart (s := hostEncode w h c cs ps s) rfl
  obtain ⟨e, hrun, hloop, hidx⟩ := hstart.run_steps (j := ps.length) (Nat.zero_add _).le
  exact ⟨e, (core_run_succ _ _ _ (step_hostEncode hl)).trans hrun, hloop, hidx.trans (Nat.zero_add _)⟩

/-- R240: what the last step returns. -/
theorem encodeResult_of_loop {e : State}
    (hloop : EncodeLoopAt ps.length (encodeStart (hostEncode w h c cs ps s)).stream e) :
    encodeResult (appendMarkerStep e) = some (encode s.fmt (.hdr w h c cs) ++ emitted e ++ endMarkerBytes) := by
  have hw : Memory.wf e.stream := by
    rw [hloop.stream]
    exact Memory.wf_writeAll _ _ Memory.wf_nil
  rw [encodeResult_appendMarkerStep hw, hloop.stream, range_stream_encodeStart]
  rfl

/-- Settles O59: the loop consumes every pixel, and its last step's result is read off the buffers. -/
theorem encodeCallEnds : Obligations.EncodeCallEnds := by
  intro s w h c cs ps _
  refine ⟨fun hl => ?_, fun hl => ⟨_, core_run_succ 0 _ _ (step_of_buildHeader_illegal rfl hl), rfl, rfl⟩⟩
  obtain ⟨e, hrun, hloop, hidx⟩ := hostEncode_run (s := s) (w := w) (h := h) (ps := ps) hl
  have hstep := step_of_appendMarker (hloop.activity.trans (if_pos hidx))
  have hnone : e.enc.run.toNat = 0 := congrArg BitVec.toNat (hloop.flushed hidx)
  have hatMost := hloop.atMost
  have hatLeast := hloop.atLeast
  rw [hnone, hidx, Nat.add_zero] at hatMost hatLeast
  refine ⟨appendMarkerStep e, (core_run_add (ps.length + 1) 1 _ e hrun).trans (core_run_succ 0 e _ hstep), hidx,
    slen_appendMarkerStep e, hatMost, fun hps => ?_, encodeResult_of_loop hloop⟩
  have hpos : 0 < ps.length := List.length_pos_iff.2 hps
  exact ⟨hatLeast hpos, hloop.status.trans (if_pos ⟨hidx ▸ hpos, hidx⟩)⟩

end

/-! ### The image round trip (R247) -/

theorem encoderPassAt_encodeStart {s : State} {ps : List Pixel} (w h : BitVec 32) (c cs : Byte) (hps : ps ≠ [])
    (hw : Memory.wf s.encout) : EncoderPassAt true ps (encodeStart (hostEncode w h c cs ps s)) where
  pixin := rfl
  npix := rfl
  lastAt := rfl
  status := (if_neg (List.length_pos_iff.2 hps).ne).symm
  activity := activity_encodeStart _
  encout := hw
  run := Nat.zero_le _
  flushed := fun _ => rfl
  recent := .inr ⟨rfl, Cache.get_zero _⟩
  followed := followed_start rfl

/-- A buffer's middle part is read from where it begins. -/
theorem range_bufferOf_middle (xs ys zs : List Byte) :
    Memory.range (bufferOf (xs ++ ys ++ zs)) xs.length ys.length = ys := by
  have hall := range_bufferOf (xs ++ ys ++ zs)
  rw [List.length_append, List.length_append, Memory.range_append, Memory.range_append, Nat.zero_add] at hall
  obtain ⟨hfront, -⟩ := List.append_inj' hall (Memory.length_range ..)
  exact (List.append_inj' hfront (Memory.length_range ..)).2

/-- R52, R244: the bytes a decoder pass of a `decode` call has to read when it starts. -/
theorem bytesLeft_chunkPassStart (s : State) :
    bytesLeft (chunkPassStart s) = Memory.range s.stream 14 (s.slen - 22) :=
  List.map_congr_left fun k hk => by
    change Memory.read (chunkPassStart s).chunks (0 + k) = _
    rw [Nat.zero_add]
    exact read_chunks_chunkPassStart (List.mem_range.1 hk)

/-- R240: a byte string as `encode` returns it. -/
def framedStream (f : Format) (w h : BitVec 32) (c cs : Byte) (chunks : List Byte) : List Byte :=
  encode f (.hdr w h c cs) ++ chunks ++ endMarkerBytes

section
variable (f : Format) (w h : BitVec 32) (c cs : Byte) (chunks : List Byte)

theorem length_framedStream : (framedStream f w h c cs chunks).length = 14 + chunks.length + 8 := by
  rw [framedStream, List.length_append, List.length_append, encode_length]
  rfl

theorem chunks_in_framedStream :
    Memory.range (bufferOf (framedStream f w h c cs chunks)) 14 chunks.length = chunks :=
  range_bufferOf_middle (encode f (.hdr w h c cs)) chunks endMarkerBytes

theorem marker_in_framedStream :
    Memory.range (bufferOf (framedStream f w h c cs chunks)) (14 + chunks.length) 8 = endMarkerBytes := by
  have hmarker := range_bufferOf_middle (encode f (.hdr w h c cs) ++ chunks) endMarkerBytes []
  rwa [List.append_nil, List.length_append, encode_length] at hmarker

theorem parseHeader_framedStream (hl : HeaderLegal c cs) :
    parseHeader f (framedStream f w h c cs chunks) = .ok (w, h, c, cs) := by
  rw [framedStream, List.append_assoc]
  exact parseHeader_eq_ok_iff.2 ⟨hl, _, decodeHeader_encode_hdr f w h c cs _⟩

end

/-- R241: over such a string the first two steps of `decode` start the decoder pass over its chunks, with one pixel expected
for each of the image. -/
theorem hostDecode_framedStream {w h : BitVec 32} {c cs : Byte} (chunks : List Byte) (d : State) (hl : HeaderLegal c cs)
    (hw : PixelMemory.wf d.pixout) : ∃ u,
    Host.Core.run Sys2Proof.core 2 (hostDecode (framedStream d.fmt w h c cs chunks) d) = .next u ∧ DecoderStarted u ∧
      bytesLeft u = chunks ∧ u.fmt = d.fmt ∧ u.expected = w.toNat * h.toNat ∧
      u.width = w ∧ u.height = h ∧ u.channels = c ∧ u.colorspace = cs := by
  have hlength := length_framedStream d.fmt w h c cs chunks
  have hmarker := marker_in_framedStream d.fmt w h c cs chunks
  have hchunks := chunks_in_framedStream d.fmt w h c cs chunks
  have hheader := parseHeader_framedStream d.fmt w h c cs chunks hl
  generalize framedStream d.fmt w h c cs chunks = bs at hlength hmarker hchunks hheader
  have hrun := hostDecode_run_two hheader (by omega) (by rwa [hlength, Nat.add_sub_cancel])
  refine ⟨_, hrun, ⟨rfl, rfl, hw⟩, ?_, rfl, rfl, rfl, rfl, rfl, rfl⟩
  rw [bytesLeft_chunkPassStart]
  change Memory.range (bufferOf bs) 14 (bs.length - 22) = chunks
  rwa [show bs.length - 22 = chunks.length by omega]

/-- Settles O56: the chunks between header and marker are those of the encoder pass, and the decoder that mirrors it is `Done`
with every pixel; the header registers hold what was parsed. -/
theorem imageRoundTrip : Obligations.ImageRoundTrip := by
  intro s d w h c cs ps hwidth hheight hl hcount hadm hd hw hpixout
  have hps : ps ≠ [] := List.length_pos_iff.1 (hcount ▸ Nat.mul_pos hwidth hheight)
  obtain ⟨e, hrun, hloop, hidx⟩ := hostEncode_run (s := s) (w := w) (h := h) (ps := ps) hl
  have hreturn := step_of_appendMarker (hloop.activity.trans (if_pos hidx))
  have hstart := encoderPassAt_encodeStart w h c cs hps hw
  obtain ⟨e', hrun', hpass, -, hfmt⟩ := hstart.run_steps hadm (j := ps.length) (Nat.zero_add _).le
  obtain rfl : e' = e := outcome_next_inj (((core_run_succ _ _ _ (step_hostEncode hl)).trans hrun').symm.trans hrun)
  have hfollowed := hpass.followed
  rw [hidx, List.take_length] at hfollowed
  obtain ⟨u, hframed, hstarted, hleft, hshared, hexpected, hheader⟩ :=
    hostDecode_framedStream (w := w) (h := h) (emitted e') d hl hpixout
  obtain ⟨k, t, hdecoded, hdone, houtput, -⟩ := hfollowed.decodes (hpass.flushed hidx) hstarted
    (hshared.trans (hd.trans hfmt.symm)) hleft (hexpected.trans hcount.symm)
  refine ⟨ps.length + 1 + 1, appendMarkerStep e', framedStream d.fmt w h c cs (emitted e'),
    (core_run_add _ 1 _ e' hrun).trans (core_run_succ 0 e' _ hreturn), hd ▸ encodeResult_of_loop hloop,
    2 + k, t, (core_run_add 2 k _ u hframed).trans hdecoded, ?_⟩
  have hin := InDecoderPass.run hstarted.activity hdecoded
  obtain ⟨-, -, ⟨htw, hth, htc, htcs⟩, -⟩ := hin.frame
  obtain ⟨huw, huh, huc, hucs⟩ := hheader
  rw [decodeResult_of_output (hin.idle (by simp [hdone])) houtput, htw, hth, htc, htcs, huw, huh, huc, hucs]

end Sys2Proof.Machine
end

section
/-! SUPPORT. Errors (R260, R264, R267): the numbers of the kinds, the kinds a step can raise on either side, and that a faulted
pass delivers its kind and no data. -/

namespace Sys2Proof.Machine

/-! ### The error codes (R260) -/

theorem ErrorKind.code_ne_zero (k : ErrorKind) : k.code ≠ 0 := by cases k <;> decide

/-- R260: code 0 is no error. -/
theorem Status.code_ne_zero_iff (st : Status) : st.code ≠ 0 ↔ ∃ k, st = .fault k := by
  cases st with
  | idle => simp [Status.code]
  | running => simp [Status.code]
  | done => simp [Status.code]
  | fault k => exact ⟨fun _ => ⟨k, rfl⟩, fun _ => k.code_ne_zero⟩

/-- Settles O14: the codes by evaluation, and no kind has code 0. -/
theorem errorCodes : Obligations.ErrorCodes :=
  ⟨rfl, rfl, rfl, rfl, rfl, rfl, rfl, Status.code_ne_zero_iff⟩

/-! ### The kinds a step raises (R261 to R264) -/

section
variable {s t : State} {k : ErrorKind}

theorem buildHeaderStep_fault (hk : (buildHeaderStep s).enc.status = .fault k) : k = .malformedHeader := by
  obtain ⟨d, -, h⟩ | ⟨-, h⟩ := buildHeaderStep_cases s <;> rw [h] at hk
  · exact (Status.fault.inj hk).symm
  · exact nomatch hk

theorem encodePixelStep_enc_status (framed : Bool) (s : State) :
    (encodePixelStep framed s).enc.status = if lastInput s then .done else s.enc.status :=
  encStep_enc_status _ _ s

/-- R261: the one kind a step raises in the encoder. -/
theorem step_enc_fault (h : step s = .next t) (hk : t.enc.status = .fault k) :
    s.enc.status = .fault k ∨ k = .malformedHeader := by
  obtain ⟨-, _, _, -, rfl⟩ | ⟨-, _, _, _, _, -, rfl⟩ | ⟨-, -, rfl⟩ | ⟨-, -, _, -, -, rfl⟩ | ⟨-, rfl⟩ |
    ⟨framed, -, rfl⟩ | ⟨-, rfl⟩ := step_effects h
  · exact .inl hk
  · exact .inl hk
  · exact .inl hk
  · exact .inl hk
  · exact .inr (buildHeaderStep_fault hk)
  · rw [encodePixelStep_enc_status] at hk
    split at hk
    · exact nomatch hk
    · exact .inl hk
  · exact .inl hk

/-- R264: a step raises three of the four kinds in the decoder. -/
theorem step_dec_fault (h : step s = .next t) (hk : t.dec.status = .fault k) :
    s.dec.status = .fault k ∨ k ≠ .sizeMismatch := by
  obtain ⟨-, k', _, hraised, rfl⟩ | ⟨-, _, _, _, _, -, rfl⟩ | ⟨-, -, rfl⟩ | ⟨-, -, _, -, -, rfl⟩ | ⟨ha, -⟩ |
    ⟨framed, -, rfl⟩ | ⟨-, rfl⟩ := step_effects h
  · exact .inr (Status.fault.inj hk ▸ hraised)
  · exact .inl hk
  · exact absurd hk (decoderStatus_ne_fault _ _ _)
  · exact absurd hk (decoderStatus_ne_fault _ _ _)
  · obtain ⟨hdec, -⟩ := (step_encoderSide (framed := false) (.inl ha)).frame h
    exact .inl (hdec ▸ hk)
  · exact .inl ((encodePixelStep_frame framed s).dec ▸ hk)
  · exact .inl hk

end

/-- Settles O51: a step that leaves a `STATUS` at fault found it so, or raised another kind. -/
theorem sizeMismatchNeverRaised : Obligations.SizeMismatchNeverRaised := fun _ _ h =>
  ⟨fun hk => (step_enc_fault h hk).resolve_right nofun, fun hk => (step_dec_fault h hk).resolve_right (absurd rfl)⟩

/-! ### What a faulted pass delivers (R267) -/

section
variable {s : State} {k : ErrorKind}

theorem decoderOutput_of_fault (hfault : s.dec.status = .fault k) : decoderOutput s = none := by
  simp [decoderOutput, hfault]

theorem encoderOutput_of_fault (hfault : s.enc.status = .fault k) : encoderOutput s = none := by
  simp [encoderOutput, emptyEncoderPass, hfault]

theorem errorOf_of_fault {st : Status} (hfault : st = .fault k) : errorOf st = some k := hfault ▸ rfl

end

/-- R240: a raise ends the `encode` call before it has returned anything. -/
theorem encodeResult_raise_encoder (k : ErrorKind) (info : ErrInfo) (s : State) :
    encodeResult (raise .encoder k info s) = none := by
  simp [encodeResult]

/-- Settles O54: the results are read on `Done`, of an empty `Running` pass, or when `STREAM` is returned. -/
theorem faultDeliversNothing : Obligations.FaultDeliversNothing := fun s k =>
  ⟨fun hdec => ⟨decoderOutput_of_fault hdec, decodeResult_of_fault hdec, errorOf_of_fault hdec⟩,
    fun henc => ⟨encoderOutput_of_fault henc, errorOf_of_fault henc⟩,
    fun info => ⟨encodeResult_raise_encoder k info s, decodeResult_of_fault (raise_decoder_dec_status k info s)⟩⟩

end Sys2Proof.Machine
end

section
/-! SUPPORT. The host's calls (R40, R290, R311): each keeps the invariant, and a bare encoder pass is over after the step that
carries `last` and not before (R174, R295). -/

namespace Sys2Proof.Machine

/-! ### The invariant under the host's calls -/

/-- R53, R311: the host presents pixels while no pass reads `PIXIN`. -/
theorem inv_pixelsPresented {s : State} (ps : List Pixel) (l : Option Nat) (hs : Inv s) :
    Inv { s with pixin := pixelsOf ps, npix := ps.length, lastAt := l, activity := .idle } :=
  { hs with
    buffers := { hs.buffers with pixin := PixelMemory.wf_writeAll _ _ PixelMemory.wf_nil }
    pending := nofun
    idx := nofun
    header := nofun }

theorem inv_hostEncode {s : State} (w h : BitVec 32) (c cs : Byte) (ps : List Pixel) (hs : Inv s) :
    Inv (hostEncode w h c cs ps s) :=
  have hpresented := inv_pixelsPresented ps (lastOf ps.length) hs
  { hpresented with
    buffers := { hpresented.buffers with }
    pending := nofun
    idx := nofun
    header := nofun }

theorem inv_hostDecode {s : State} (bs : List Byte) (hs : Inv s) : Inv (hostDecode bs s) :=
  { hs with
    buffers := { hs.buffers with stream := Memory.wf_writeAll _ _ Memory.wf_nil }
    pending := nofun
    idx := nofun
    header := nofun }

theorem inv_hostStartDecoder {s : State} (bs : List Byte) (n : Nat) (hs : Inv s) : Inv (hostStartDecoder bs n s) :=
  inv_passStartDec bs.length n hs (Memory.wf_writeAll _ _ Memory.wf_nil)

theorem inv_hostStartEncoder {s : State} (ps : List Pixel) (l : Option Nat) (hs : Inv s) :
    Inv (hostStartEncoder ps l s) :=
  have hstarted := inv_freshEncoder s.slen (.encodePixels false) (inv_pixelsPresented ps l hs) hs.buffers.stream nofun
  hstarted

/-- Settles O47: a call lays out whole buffers and starts an operation or a pass, with nothing consumed. -/
theorem hostCallsKeepInv : Obligations.HostCallsKeepInv := fun _ hs =>
  ⟨fun w h c cs ps => inv_hostEncode w h c cs ps hs, fun bs => inv_hostDecode bs hs,
    fun bs n => inv_hostStartDecoder bs n hs, fun ps l => inv_hostStartEncoder ps l hs⟩

/-! ### When a bare encoder pass is over (R174, R295) -/

/-- The last of `k` steps carried `last`, which the host presents with pixel `l`. -/
def LastCarried (l : Option Nat) (k : Nat) : Prop := ∃ j, k = j + 1 ∧ l = some j

theorem not_lastCarried_zero (l : Option Nat) : ¬ LastCarried l 0 := nofun

theorem lastCarried_succ_iff {l : Option Nat} {k : Nat} : LastCarried l (k + 1) ↔ l = some k := by
  simp [LastCarried]

/-- `k` steps of a bare encoder pass over `n` pixels, with `last` on pixel `l`, have come to `t`. -/
structure BarePassAt (n : Nat) (l : Option Nat) (k : Nat) (t : State) : Prop where
  npix : t.npix = n
  lastAt : t.lastAt = l
  idx : t.enc.idx = k
  atMost : k ≤ n
  activity : t.activity = encoderActivity false t
  done : LastCarried l k → t.enc.status = .done
  running : ¬ LastCarried l k → t.enc.status = .running

theorem barePassAt_hostStartEncoder (ps : List Pixel) (l : Option Nat) (s : State) :
    BarePassAt ps.length l 0 (hostStartEncoder ps l s) where
  npix := rfl
  lastAt := rfl
  idx := rfl
  atMost := Nat.zero_le _
  activity := rfl
  done := fun hlast => absurd hlast (not_lastCarried_zero l)
  running := fun _ => rfl

/-- R160: a step of an encoder pass is enabled and consumes one pixel. -/
theorem encodePixels_step_inv {framed : Bool} {s t : State} (ha : s.activity = .encodePixels framed)
    (h : step s = .next t) : EncoderEnabled framed s ∧ t = encodePixelStep framed s := by
  obtain ⟨_, hplace, -⟩ | ⟨ha', -⟩ | ⟨framed', he, ht⟩ | ⟨ha', -⟩ := step_cases h
  · obtain ⟨ha', -⟩ | ⟨ha', -⟩ | ⟨ha', -⟩ := hplace <;> cases ha.symm.trans ha'
  · cases ha.symm.trans ha'
  · cases ha.symm.trans he.1
    exact ⟨he, ht⟩
  · cases ha.symm.trans ha'

section
variable {n k : Nat} {l : Option Nat} {s t : State}

/-- R26: once the pass is `Done` no step is enabled, so a pass that steps was not. -/
theorem BarePassAt.enabled (h : BarePassAt n l k s) (ht : step s = .next t) :
    EncoderEnabled false s ∧ t = encodePixelStep false s := by
  have hactivity := h.activity
  rw [encoderActivity_bare] at hactivity
  by_cases hdone : s.enc.status = .done
  · rw [if_pos hdone] at hactivity
    cases ((step_eq_noStepEnabled_iff s).2 (.inl hactivity)).symm.trans ht
  · rw [if_neg hdone] at hactivity
    exact encodePixels_step_inv hactivity ht

theorem BarePassAt.step (h : BarePassAt n l k s) (ht : step s = .next t) : BarePassAt n l (k + 1) t := by
  obtain ⟨⟨-, hrunning, hpixel⟩, rfl⟩ := h.enabled ht
  obtain ⟨-, -, -, hnpix, hlastAt⟩ := (encodePixelStep_frame false s).control
  have hlast : lastInput s = true ↔ LastCarried l (k + 1) := by
    rw [lastInput, h.lastAt, h.idx, decide_eq_true_iff, lastCarried_succ_iff]
  rw [h.idx, h.npix] at hpixel
  exact
    { npix := hnpix.trans h.npix
      lastAt := hlastAt.trans h.lastAt
      idx := (encStep_enc_idx _ _ s).trans (congrArg (· + 1) h.idx)
      atMost := hpixel
      activity := rfl
      done := fun hcarried => by rw [encodePixelStep_enc_status, if_pos (hlast.2 hcarried)]
      running := fun hcarried => by rw [encodePixelStep_enc_status, if_neg (mt hlast.1 hcarried), hrunning] }

theorem BarePassAt.of_run {ps : List Pixel} (hrun : Host.Core.run Sys2Proof.core k (hostStartEncoder ps l s) = .next t) :
    BarePassAt ps.length l k t := by
  induction k generalizing t with
  | zero =>
    obtain rfl := outcome_next_inj hrun
    exact barePassAt_hostStartEncoder ps l s
  | succ k ih =>
    obtain ⟨u, hu, ht⟩ := core_run_succ_last hrun
    exact (ih hu).step ht

end

/-- Settles O60: `STATUS` says whether `last` was carried, and with a pixel in `PIXIN` a `Running` pass has no result. -/
theorem encoderPassOver : Obligations.EncoderPassOver := by
  intro s t ps l k hps hrun
  have hpass := BarePassAt.of_run hrun
  refine ⟨hpass.atMost, hpass.idx, fun hlast => ?_, fun hlast => ?_⟩
  · have hdone := hpass.done hlast
    exact ⟨hdone, (encoderOutput_eq_some_iff t _).2 ⟨.inl hdone, rfl⟩⟩
  · have hrunning := hpass.running hlast
    have hnpix : t.npix ≠ 0 := hpass.npix ▸ (List.length_pos_iff.2 hps).ne'
    exact ⟨hrunning, encoderOutput_of_running hrunning hnpix,
      fun w h c cs qs => encoderOutput_hostEncode_of_running w h c cs qs hrunning⟩

end Sys2Proof.Machine
end
